-- ==== Sys2Proof/Word.lean ====
section
/-! DEFINITION. The words of the core: bytes, instruction words, 12-bit addresses, register numbers
(00_scope.md R6, R7; 10_state.md R21). -/

namespace Sys2Proof

/-- A byte: the width of a memory cell, of V0..VF, DT and ST (R21, R27, R28, R50). -/
abbrev Byte := BitVec 8

/-- A 16-bit instruction word (30_encoding.md R70); also the width of I (10_state.md R24). -/
abbrev Word := BitVec 16

/-- The 12-bit immediate nnn (30_encoding.md R72). -/
abbrev Addr12 := BitVec 12

/-- The 4-bit immediate n (30_encoding.md R72). -/
abbrev Nibble := BitVec 4

/-- The number of a register V0..VF (10_state.md R21). -/
abbrev RegIx := Fin 16

/-- VF, the register that doubles as the flag (10_state.md R22). -/
abbrev regF : RegIx := 15

end Sys2Proof
end

