-- ==== Sys2Proof/Syntax.lean ====
section
/-! DEFINITION. The instructions: one constructor per row of spec/opcode_table.json, with the fields
that row uses (30_encoding.md R76, R83). -/

namespace Sys2Proof

/-- The 35 instructions (30_encoding.md R76). The fields a row ignores (R79) are not carried, except
SYS's nnn, which the table gives the row. -/
inductive Instr where
  /-- 00E0 CLS (43_display.md R180). -/
  | cls
  /-- 00EE RET (40_control_flow.md R100). -/
  | ret
  /-- 0NNN SYS nnn (R101). -/
  | sys (nnn : Addr12)
  /-- 1NNN JP nnn (R102). -/
  | jp (nnn : Addr12)
  /-- 2NNN CALL nnn (R105). -/
  | call (nnn : Addr12)
  /-- 3XNN SE Vx, nn (R106). -/
  | seImm (x : RegIx) (nn : Byte)
  /-- 4XNN SNE Vx, nn (R107). -/
  | sneImm (x : RegIx) (nn : Byte)
  /-- 5XYN SE Vx, Vy, any n (R108). -/
  | seReg (x y : RegIx)
  /-- 6XNN LD Vx, nn (41_alu.md R131). -/
  | ldImm (x : RegIx) (nn : Byte)
  /-- 7XNN ADD Vx, nn (R132). -/
  | addImm (x : RegIx) (nn : Byte)
  /-- 8XY0 LD Vx, Vy (R133). -/
  | ldReg (x y : RegIx)
  /-- 8XY1 OR Vx, Vy (R134). -/
  | orReg (x y : RegIx)
  /-- 8XY2 AND Vx, Vy (R135). -/
  | andReg (x y : RegIx)
  /-- 8XY3 XOR Vx, Vy (R136). -/
  | xorReg (x y : RegIx)
  /-- 8XY4 ADD Vx, Vy (R139). -/
  | addReg (x y : RegIx)
  /-- 8XY5 SUB Vx, Vy (R140). -/
  | subReg (x y : RegIx)
  /-- 8XY6 SHR Vx, y ignored (R141). -/
  | shr (x : RegIx)
  /-- 8XY7 SUBN Vx, Vy (R142). -/
  | subnReg (x y : RegIx)
  /-- 8XYE SHL Vx, y ignored (R143). -/
  | shl (x : RegIx)
  /-- 9XYN SNE Vx, Vy, any n (40_control_flow.md R109). -/
  | sneReg (x y : RegIx)
  /-- ANNN LD I, nnn (42_index_and_memory.md R160). -/
  | ldI (nnn : Addr12)
  /-- BNNN JP V0, nnn (40_control_flow.md R111). -/
  | jpV0 (nnn : Addr12)
  /-- CXNN RND Vx, nn (41_alu.md R145). -/
  | rnd (x : RegIx) (nn : Byte)
  /-- DXYN DRW Vx, Vy, n (43_display.md R181). -/
  | drw (x y : RegIx) (n : Nibble)
  /-- EX9E SKP Vx (44_timers_and_keys.md R204). -/
  | skp (x : RegIx)
  /-- EXA1 SKNP Vx (R205). -/
  | sknp (x : RegIx)
  /-- FX07 LD Vx, DT (R200). -/
  | ldVxDT (x : RegIx)
  /-- FX0A LD Vx, K (R206). -/
  | ldVxK (x : RegIx)
  /-- FX15 LD DT, Vx (R201). -/
  | ldDTVx (x : RegIx)
  /-- FX18 LD ST, Vx (R202). -/
  | ldSTVx (x : RegIx)
  /-- FX1E ADD I, Vx (42_index_and_memory.md R161). -/
  | addIVx (x : RegIx)
  /-- FX29 LD F, Vx (R162). -/
  | ldFVx (x : RegIx)
  /-- FX33 LD B, Vx (R163). -/
  | ldBVx (x : RegIx)
  /-- FX55 LD [I], Vx (R165). -/
  | ldMemVx (x : RegIx)
  /-- FX65 LD Vx, [I] (R166). -/
  | ldVxMem (x : RegIx)
  deriving DecidableEq, Repr

end Sys2Proof
end

