-- ==== Sys2Proof/WellFormed.lean ====
section
/-! DEFINITION. Which terms of Instr are instructions of the core. The types bound every field; the one
condition left is that SYS excludes three words of class 0 (30_encoding.md R76 row 3, R77). -/

namespace Sys2Proof

/-- SYS nnn is an instruction unless its word is the null word, CLS or RET (R77). -/
def Instr.sysAllowed (nnn : Addr12) : Bool :=
  nnn != 0x000#12 && nnn != 0x0E0#12 && nnn != 0x0EE#12

/-- The terms that stand for a word of the core (R76, R77). -/
def Instr.wellFormed : Instr → Bool
  | .sys nnn => Instr.sysAllowed nnn
  | .cls | .ret | .jp _ | .call _ | .seImm _ _ | .sneImm _ _ | .seReg _ _ | .ldImm _ _
  | .addImm _ _ | .ldReg _ _ | .orReg _ _ | .andReg _ _ | .xorReg _ _ | .addReg _ _
  | .subReg _ _ | .shr _ | .subnReg _ _ | .shl _ | .sneReg _ _ | .ldI _ | .jpV0 _
  | .rnd _ _ | .drw _ _ _ | .skp _ | .sknp _ | .ldVxDT _ | .ldVxK _ | .ldDTVx _
  | .ldSTVx _ | .addIVx _ | .ldFVx _ | .ldBVx _ | .ldMemVx _ | .ldVxMem _ => true

end Sys2Proof
end

