-- ==== Sys2Proof/Decode.lean ====
section
/-! DEFINITION. Decoding (30_encoding.md R70 to R83): total over all 65536 words, and over any list of
bytes; and after it the encoder, written from the same table. -/

namespace Sys2Proof

/-! ### Fields (30_encoding.md R71, R72) -/

/-- c, `w[15:12]`, the opcode class (R72). -/
def fieldC (w : Word) : Nat := (w.extractLsb' 12 4).toNat

/-- x, `w[11:8]` (R72). -/
def fieldX (w : Word) : RegIx := (w.extractLsb' 8 4).toFin

/-- y, `w[7:4]` (R72). -/
def fieldY (w : Word) : RegIx := (w.extractLsb' 4 4).toFin

/-- n, `w[3:0]` (R72). -/
def fieldN (w : Word) : Nibble := w.extractLsb' 0 4

/-- nn, `w[7:0]` (R72). -/
def fieldNN (w : Word) : Byte := w.extractLsb' 0 8

/-- nnn, `w[11:0]` (R72). -/
def fieldNNN (w : Word) : Addr12 := w.extractLsb' 0 12

/-! ### Decoding a word -/

/-- What the decoder answers (R74, R83): an instruction, the null word, or an Undefined word. -/
inductive Decoded where
  /-- One of the 35 instructions (R76). -/
  | instr (i : Instr)
  /-- The word 0x0000 (R77). -/
  | null
  /-- One of the 9808 words the source names no behaviour for (R78). -/
  | undefined (w : Word)
  deriving DecidableEq, Repr

/-- Class 0, decoded on the whole word in the order of R77. -/
def decodeClass0 (w : Word) : Decoded :=
  if w = 0x0000#16 then .null
  else if w = 0x00E0#16 then .instr .cls
  else if w = 0x00EE#16 then .instr .ret
  else .instr (.sys (fieldNNN w))

/-- Class 8, keyed further on n (R75, R76 rows 11 to 19, R78). -/
def decodeClass8 (w : Word) : Decoded :=
  match (fieldN w).toNat with
  | 0x0 => .instr (.ldReg (fieldX w) (fieldY w))
  | 0x1 => .instr (.orReg (fieldX w) (fieldY w))
  | 0x2 => .instr (.andReg (fieldX w) (fieldY w))
  | 0x3 => .instr (.xorReg (fieldX w) (fieldY w))
  | 0x4 => .instr (.addReg (fieldX w) (fieldY w))
  | 0x5 => .instr (.subReg (fieldX w) (fieldY w))
  | 0x6 => .instr (.shr (fieldX w))
  | 0x7 => .instr (.subnReg (fieldX w) (fieldY w))
  | 0xE => .instr (.shl (fieldX w))
  | _ => .undefined w

/-- Class E, keyed further on nn (R75, R76 rows 25, 26, R78). -/
def decodeClassE (w : Word) : Decoded :=
  match (fieldNN w).toNat with
  | 0x9E => .instr (.skp (fieldX w))
  | 0xA1 => .instr (.sknp (fieldX w))
  | _ => .undefined w

/-- Class F, keyed further on nn (R75, R76 rows 27 to 35, R78). -/
def decodeClassF (w : Word) : Decoded :=
  match (fieldNN w).toNat with
  | 0x07 => .instr (.ldVxDT (fieldX w))
  | 0x0A => .instr (.ldVxK (fieldX w))
  | 0x15 => .instr (.ldDTVx (fieldX w))
  | 0x18 => .instr (.ldSTVx (fieldX w))
  | 0x1E => .instr (.addIVx (fieldX w))
  | 0x29 => .instr (.ldFVx (fieldX w))
  | 0x33 => .instr (.ldBVx (fieldX w))
  | 0x55 => .instr (.ldMemVx (fieldX w))
  | 0x65 => .instr (.ldVxMem (fieldX w))
  | _ => .undefined w

/-- The decoder: dispatch on the class (R75), classes 0, 8, E and F keyed further. A class is a number
below 16 (R72), so the last arm is class F. -/
def decode (w : Word) : Decoded :=
  match fieldC w with
  | 0x0 => decodeClass0 w
  | 0x1 => .instr (.jp (fieldNNN w))
  | 0x2 => .instr (.call (fieldNNN w))
  | 0x3 => .instr (.seImm (fieldX w) (fieldNN w))
  | 0x4 => .instr (.sneImm (fieldX w) (fieldNN w))
  | 0x5 => .instr (.seReg (fieldX w) (fieldY w))
  | 0x6 => .instr (.ldImm (fieldX w) (fieldNN w))
  | 0x7 => .instr (.addImm (fieldX w) (fieldNN w))
  | 0x8 => decodeClass8 w
  | 0x9 => .instr (.sneReg (fieldX w) (fieldY w))
  | 0xA => .instr (.ldI (fieldNNN w))
  | 0xB => .instr (.jpV0 (fieldNNN w))
  | 0xC => .instr (.rnd (fieldX w) (fieldNN w))
  | 0xD => .instr (.drw (fieldX w) (fieldY w) (fieldN w))
  | 0xE => decodeClassE w
  | _ => decodeClassF w

/-! ### Bytes and words -/

/-- The word of two bytes, high byte first (20_memory.md R53). -/
def wordOfBytes (hi lo : Byte) : Word := BitVec.ofNat 16 (hi.toNat * 256 + lo.toNat)

/-- The byte of a word at the lower address (R53). -/
def highByte (w : Word) : Byte := w.extractLsb' 8 8

/-- The byte of a word at the higher address (R53). -/
def lowByte (w : Word) : Byte := w.extractLsb' 0 8

/-- Why a list of bytes begins with no instruction. -/
inductive Reject where
  /-- Fewer than two bytes are left. -/
  | truncated
  /-- The null word (R77). -/
  | nullWord
  /-- An Undefined word (R78). -/
  | undefinedWord (w : Word)
  deriving DecidableEq, Repr

/-- What decoding a list of bytes answers. -/
inductive BytesDecoded where
  /-- The first instruction and the bytes after it. -/
  | instr (i : Instr) (rest : List Byte)
  /-- No instruction, by name. -/
  | reject (r : Reject)
  deriving DecidableEq, Repr

/-- Decoding the first instruction of any list of bytes: every instruction is two bytes long (R81). -/
def decodeBytes : List Byte → BytesDecoded
  | hi :: lo :: rest =>
    match decode (wordOfBytes hi lo) with
    | .instr i => .instr i rest
    | .null => .reject .nullWord
    | .undefined w => .reject (.undefinedWord w)
  | [_] => .reject .truncated
  | [] => .reject .truncated

/-- The word of the low `nbits` bits of w, as spec/opcode_table.json numbers them: bit 0 of the number
is bit 0 of the 16-bit word, and every bit above `nbits` is 0. -/
def tableWord (nbits w : Nat) : Word := BitVec.ofNat 16 (w % 2 ^ nbits)

/-- The instruction the decoder reads from a word of the opcode table, laid out in memory order. -/
def decodeTableWord (nbits w : Nat) : Option Instr :=
  match decodeBytes [highByte (tableWord nbits w), lowByte (tableWord nbits w)] with
  | .instr i _ => some i
  | .reject _ => none

/-! ### Encoding (30_encoding.md R71, R76) -/

/-- A word of class c with the fields nnn (R71). -/
def wordNNN (c : Nat) (nnn : Addr12) : Word := BitVec.ofNat 16 (c * 4096 + nnn.toNat)

/-- A word of class c with the fields x and nn (R71). -/
def wordXNN (c : Nat) (x : RegIx) (nn : Byte) : Word :=
  BitVec.ofNat 16 (c * 4096 + x.val * 256 + nn.toNat)

/-- A word of class c with the fields x, y and n (R71). -/
def wordXYN (c : Nat) (x y : RegIx) (n : Nibble) : Word :=
  BitVec.ofNat 16 (c * 4096 + x.val * 256 + y.val * 16 + n.toNat)

/-- The encoder (R76). A field the instruction ignores (R79) is encoded as 0 (log 35). -/
def encode : Instr → Word
  | .cls => 0x00E0
  | .ret => 0x00EE
  | .sys nnn => wordNNN 0x0 nnn
  | .jp nnn => wordNNN 0x1 nnn
  | .call nnn => wordNNN 0x2 nnn
  | .seImm x nn => wordXNN 0x3 x nn
  | .sneImm x nn => wordXNN 0x4 x nn
  | .seReg x y => wordXYN 0x5 x y 0x0
  | .ldImm x nn => wordXNN 0x6 x nn
  | .addImm x nn => wordXNN 0x7 x nn
  | .ldReg x y => wordXYN 0x8 x y 0x0
  | .orReg x y => wordXYN 0x8 x y 0x1
  | .andReg x y => wordXYN 0x8 x y 0x2
  | .xorReg x y => wordXYN 0x8 x y 0x3
  | .addReg x y => wordXYN 0x8 x y 0x4
  | .subReg x y => wordXYN 0x8 x y 0x5
  | .shr x => wordXYN 0x8 x 0 0x6
  | .subnReg x y => wordXYN 0x8 x y 0x7
  | .shl x => wordXYN 0x8 x 0 0xE
  | .sneReg x y => wordXYN 0x9 x y 0x0
  | .ldI nnn => wordNNN 0xA nnn
  | .jpV0 nnn => wordNNN 0xB nnn
  | .rnd x nn => wordXNN 0xC x nn
  | .drw x y n => wordXYN 0xD x y n
  | .skp x => wordXNN 0xE x 0x9E
  | .sknp x => wordXNN 0xE x 0xA1
  | .ldVxDT x => wordXNN 0xF x 0x07
  | .ldVxK x => wordXNN 0xF x 0x0A
  | .ldDTVx x => wordXNN 0xF x 0x15
  | .ldSTVx x => wordXNN 0xF x 0x18
  | .addIVx x => wordXNN 0xF x 0x1E
  | .ldFVx x => wordXNN 0xF x 0x29
  | .ldBVx x => wordXNN 0xF x 0x33
  | .ldMemVx x => wordXNN 0xF x 0x55
  | .ldVxMem x => wordXNN 0xF x 0x65

end Sys2Proof
end

