-- ==== Sys2Proof/Config.lean ====
section
/-! DEFINITION. The implementation parameters of 00_scope.md R6, and the free values that stand for
the host's inputs a state does not supply (30_encoding.md R90). -/

namespace Sys2Proof

/-- The parameters a model of the core takes (00_scope.md R6). A core keeps one value of them for its
whole life; State carries it unchanged (log 1). -/
structure Config where
  /-- MEM_SIZE, the number of memory bytes (20_memory.md R50). -/
  memSize : Nat
  /-- STACK_LIMIT; `none` is the unbounded stack (10_state.md R26). -/
  stackLimit : Option Nat
  /-- FONT, the 80 bytes at 0x000..0x04F at construction (10_state.md R40). -/
  font : Vector Byte 80
  /-- render_on_clear_only: the tick renders nothing (60_exceptions.md R241). -/
  renderOnClearOnly : Bool
  /-- delay_instruction_blocks: FX15 holds the core until DT is 0 (44_timers_and_keys.md R203). -/
  delayInstructionBlocks : Bool
  /-- BCD_TENS_QUIRK: FX33 computes the tens digit modulo 100 (42_index_and_memory.md R163). -/
  bcdTensQuirk : Bool
  deriving DecidableEq, Repr

/-- The 80 bytes of the standard font, glyph by glyph (10_state.md R40). The spec takes them from
general knowledge: PRESUMED, log 8. -/
def Config.standardFont : Vector Byte 80 :=
  (#v[0xF0, 0x90, 0x90, 0x90, 0xF0, 0x20, 0x60, 0x20, 0x20, 0x70] : Vector Byte 10)
  ++ (#v[0xF0, 0x10, 0xF0, 0x80, 0xF0, 0xF0, 0x10, 0xF0, 0x10, 0xF0] : Vector Byte 10)
  ++ (#v[0x90, 0x90, 0xF0, 0x10, 0x10, 0xF0, 0x80, 0xF0, 0x10, 0xF0] : Vector Byte 10)
  ++ (#v[0xF0, 0x80, 0xF0, 0x90, 0xF0, 0xF0, 0x10, 0x20, 0x40, 0x40] : Vector Byte 10)
  ++ (#v[0xF0, 0x90, 0xF0, 0x90, 0xF0, 0xF0, 0x90, 0xF0, 0x10, 0xF0] : Vector Byte 10)
  ++ (#v[0xF0, 0x90, 0xF0, 0x90, 0x90, 0xE0, 0x90, 0xE0, 0x90, 0xE0] : Vector Byte 10)
  ++ (#v[0xF0, 0x80, 0x80, 0x80, 0xF0, 0xE0, 0x90, 0x90, 0x90, 0xE0] : Vector Byte 10)
  ++ (#v[0xF0, 0x80, 0xF0, 0x80, 0xF0, 0xF0, 0x80, 0xF0, 0x80, 0x80] : Vector Byte 10)

/-- The default of every parameter (R6). -/
def Config.default : Config where
  memSize := 4096
  stackLimit := none
  font := Config.standardFont
  renderOnClearOnly := false
  delayInstructionBlocks := false
  bcdTensQuirk := false

/-- The ranges R6 gives: 4096 ≤ MEM_SIZE ≤ 65536, and a finite STACK_LIMIT is at least 1. -/
def Config.wf (c : Config) : Bool :=
  decide (4096 ≤ c.memSize) && decide (c.memSize ≤ 65536) &&
    match c.stackLimit with
    | none => true
    | some l => decide (1 ≤ l)

/-- FREE VALUE: the tick bit of the step numbered k when the state supplies no input for it. Any
sequence of true and false is admitted (60_exceptions.md R235), so nothing constrains it (log 2). -/
opaque Config.hostTick : Nat → Bool

/-- FREE VALUE: the random byte of the step numbered k when the state supplies no input for it. Every
value is admitted at every step (60_exceptions.md R243), so nothing constrains it (log 2). -/
opaque Config.hostRnd : Nat → Byte

end Sys2Proof
end

