-- ==== Sys2Proof/Machine/State.lean ====
section
/-! DEFINITION. The state of the core as plain data (10_state.md R20), its reset (70_reset_and_hazards.md
R260), and the reasons a step can stop. -/

namespace Sys2Proof.Machine

/-- The six fatal conditions, the core's only exceptions (60_exceptions.md R220). -/
inductive FatalKind where
  /-- The fetched word is 0x0000 (R221). -/
  | nullInstruction
  /-- 00EE with an empty stack (R222). -/
  | stackUnderflow
  /-- 1NNN to its own address (R224). -/
  | selfJump
  /-- An access would reach an address of MEM_SIZE or more (R223). -/
  | memoryOverflow
  /-- The fetched word is Undefined (R225). -/
  | undefinedOpcode
  /-- 2NNN with a full stack, only under a finite STACK_LIMIT (R226). -/
  | stackOverflow
  deriving DecidableEq, Repr

/-- Whether the core runs, or which fatal condition ended its run (10_state.md R33). -/
inductive Status where
  | running
  | fatal (kind : FatalKind)
  deriving DecidableEq, Repr

/-- The two inputs the host supplies with one call of `run_next()` (30_encoding.md R90). -/
structure StepInput where
  /-- The tick interval has elapsed (60_exceptions.md R235). -/
  tick : Bool
  /-- The value `random_byte()` would return in this step (60_exceptions.md R243). -/
  rnd : Byte
  deriving DecidableEq, Repr

/-- The framebuffer: 64 columns of 32 cells, indexed [column][row]; true is lit (10_state.md R29). -/
abbrev Display := Vector (Vector Bool 32) 64

/-- Memory: the cells whose byte differs from the byte they held at construction, addresses strictly
rising (20_memory.md R50; Machine/Memory.lean; log 9). -/
abbrev Memory := List Host.Cell

/-- The state of the core. The fields `mem` to `status` are the tuple of 10_state.md R20, `cfg` holds the
parameters of 00_scope.md R6 (log 1), and the last three are the model's own: the step's inputs and the
frames it issued (30_encoding.md R90; log 2, log 3). -/
structure State where
  /-- The parameters, the same in every state of a run (00_scope.md R6). -/
  cfg : Config
  /-- mem (20_memory.md R50). -/
  mem : Memory
  /-- V0..VF (10_state.md R21). -/
  v : Vector Byte 16
  /-- I (10_state.md R24). -/
  i : Word
  /-- pc, a natural number (10_state.md R25). -/
  pc : Nat
  /-- The return stack, oldest entry first; its top is the last entry (10_state.md R26). -/
  stack : List Nat
  /-- DT (10_state.md R27). -/
  dt : Byte
  /-- ST (10_state.md R28). -/
  st : Byte
  /-- The framebuffer (10_state.md R29). -/
  disp : Display
  /-- display_changed (10_state.md R30). -/
  dirty : Bool
  /-- Held by FX15 under delay_instruction_blocks (10_state.md R32). -/
  waiting : Bool
  /-- Running, or the fatal condition that ended the run (10_state.md R33). -/
  status : Status
  /-- The inputs the host has supplied and no step has used yet, the next step's first (log 2). -/
  inputs : List StepInput
  /-- The number of the next free input, used when `inputs` is empty (log 2). -/
  stepNo : Nat
  /-- The frames handed to the render collaborator so far, oldest first (60_exceptions.md R240; log 3). -/
  frames : List Display
  deriving DecidableEq, Repr

/-- A core right after its construction with the parameters c (70_reset_and_hazards.md R260). Memory
lists nothing: every byte is as at construction. I, dirty, waiting and status are the spec's decision
D24 (log 26); inputs, stepNo and frames are the model's (log 2, log 3). -/
def State.resetWith (c : Config) : State where
  cfg := c
  mem := []
  v := Vector.replicate 16 0
  i := 0
  pc := 0x200
  stack := []
  dt := 0
  st := 0
  disp := Vector.replicate 64 (Vector.replicate 32 false)
  dirty := false
  waiting := false
  status := .running
  inputs := []
  stepNo := 0
  frames := []

/-- The core right after its construction with the default parameters (R6, R260). -/
def State.reset : State := State.resetWith Config.default

/-- The reasons the machine stops without a next state. -/
inductive Fault where
  /-- Raised by a step of a core whose status is Fatal(kind): such a core has no further step
  (60_exceptions.md R228, R229). Safe: the hardware does not go on either (log 5). -/
  | halted (kind : FatalKind)
  deriving DecidableEq, Repr

/-- The reasons a step has no meaning in this model. -/
inductive Refusal where
  /-- Raised by an arm of exec for an instruction with no meaning yet; no arm of this model raises it.
  Safe: the machine stops where the hardware goes on. -/
  | notModelled (mnemonic : String)
  deriving DecidableEq, Repr

/-- What an instruction or a step answers. -/
abbrev Result := Host.Outcome State Fault Refusal

end Sys2Proof.Machine
end

