-- ==== Sys2Proof/Machine/Memory.lean ====
section
/-! DEFINITION. Memory: what an unlisted address reads as, reading and writing one byte or a run of
bytes, and the canonical form (20_memory.md R50 to R61; 70_reset_and_hazards.md R260). -/

namespace Sys2Proof.Machine

/-- The byte at address a right after construction, and so what an unlisted address reads as: the font
at 0x000..0x04F, 0 elsewhere (20_memory.md R58; 70_reset_and_hazards.md R260). -/
def resetByte (c : Config) (a : Nat) : Byte :=
  if h : a < 80 then c.font[a] else 0

/-- `mem[a]`: the listed byte, or the byte the address held at construction (20_memory.md R51). -/
def memRead (c : Config) : Memory → Nat → Byte
  | [], a => resetByte c a
  | (k, b) :: rest, a => if k = a then b else memRead c rest a

/-- Puts a cell in front unless it holds what its address reads as when unlisted. -/
def memCons (c : Config) (a : Nat) (b : Byte) (m : Memory) : Memory :=
  if b = resetByte c a then m else (a, b) :: m

/-- `mem[a] <- b` (20_memory.md R51), keeping the canonical form. -/
def memWrite (c : Config) : Memory → Nat → Byte → Memory
  | [], a, b => memCons c a b []
  | (k, x) :: rest, a, b =>
    if a < k then memCons c a b ((k, x) :: rest)
    else if a = k then memCons c a b rest
    else (k, x) :: memWrite c rest a b

/-- The canonical form above a bound: addresses at least `lo` and strictly rising, each below MEM_SIZE,
and no entry equal to what its address reads as when unlisted. -/
def memWfFrom (c : Config) (lo : Nat) : Memory → Bool
  | [] => true
  | (k, b) :: rest =>
    decide (lo ≤ k) && decide (k < c.memSize) && decide (b ≠ resetByte c k) &&
      memWfFrom c (k + 1) rest

/-- The canonical form of memory. -/
def Memory.wf (c : Config) (m : Memory) : Bool := memWfFrom c 0 m

/-- MemRead(a, 1) (20_memory.md R51). The instruction that reads has checked a < MEM_SIZE (R52). -/
def State.readByte (s : State) (a : Nat) : Byte := memRead s.cfg s.mem a

/-- MemWrite(a, 1, b) (20_memory.md R51). The instruction that writes has checked a < MEM_SIZE (R52). -/
def State.writeByte (s : State) (a : Nat) (b : Byte) : State :=
  { s with mem := memWrite s.cfg s.mem a b }

/-- The n bytes from address a on. -/
def State.readBytes (s : State) (a : Nat) : Nat → List Byte
  | 0 => []
  | n + 1 => s.readByte a :: s.readBytes (a + 1) n

/-- Writes the bytes bs from address a on, the first at a. -/
def State.writeBytes (s : State) (a : Nat) : List Byte → State
  | [] => s
  | b :: bs => (s.writeByte a b).writeBytes (a + 1) bs

/-- The bound check of 20_memory.md R52: the n bytes from a on all lie below MEM_SIZE. Sums are on
naturals, without wrap. -/
def State.fits (s : State) (a n : Nat) : Bool :=
  decide (n = 0) || decide (a + n - 1 < s.cfg.memSize)

end Sys2Proof.Machine
end

