-- ==== Sys2Proof/Machine/Operands.lean ====
section
/-! DEFINITION. The operand forms: a register V[x], an immediate, the bytes at I, the block V0..Vx, the
delay timer, the random byte (30_encoding.md R73; 42_index_and_memory.md; 60_exceptions.md R243). -/

namespace Sys2Proof.Machine

/-- V[x] (00_scope.md R9). -/
def State.reg (s : State) (x : RegIx) : Byte := s.v[x]

/-- `V[x] <- b` (00_scope.md R9). No register is hardwired (10_state.md R21). -/
def State.setReg (s : State) (x : RegIx) (b : Byte) : State := { s with v := s.v.set x b }

/-- V0..Vx, x + 1 registers in order: the source of FX55 (42_index_and_memory.md R165). -/
def State.regBlock (s : State) (x : RegIx) : List Byte := s.v.toList.take (x.val + 1)

/-- The registers after V0..Vx have taken the bytes at a .. a + x: the destination of FX65
(42_index_and_memory.md R166). -/
def State.loadRegBlock (s : State) (x : RegIx) (a : Nat) : State :=
  { s with v := s.v.mapFinIdx fun k b _ => if k ≤ x.val then s.readByte (a + k) else b }

/-- The effective address of an access through I, on naturals (42_index_and_memory.md). -/
abbrev State.indexAddr (s : State) : Nat := s.i.toNat

/-- The address operand nnn as a natural number, unsigned (30_encoding.md R73). -/
def addrOf (nnn : Addr12) : Nat := nnn.toNat

/-- nnn zero-extended to the width of I (42_index_and_memory.md R160). -/
def indexOf (nnn : Addr12) : Word := nnn.setWidth 16

/-- The inputs of the step about to be made: the first the host has supplied, else the free values
(30_encoding.md R90; log 2). -/
def State.input (s : State) : StepInput :=
  match s.inputs with
  | inp :: _ => inp
  | [] => { tick := Config.hostTick s.stepNo, rnd := Config.hostRnd s.stepNo }

end Sys2Proof.Machine
end

