-- ==== Sys2Proof/Machine/Flags.lean ====
section
/-! DEFINITION. The results and flags of the ALU: each operation is computed exactly on naturals and then
narrowed, and its flag comes from the exact values (00_scope.md R8; 41_alu.md R130, R138). -/

namespace Sys2Proof.Machine

/-- A flag as VF holds it: 1 or 0 (10_state.md R22). -/
def flagByte (f : Bool) : Byte := if f then 1 else 0

/-- (a + b) mod 256 (41_alu.md R132, R139). -/
def addBytes (a b : Byte) : Byte := BitVec.ofNat 8 (a.toNat + b.toNat)

/-- The carry of a + b: the sum exceeds 255 (41_alu.md R139). -/
def addCarry (a b : Byte) : Bool := decide (a.toNat + b.toNat > 255)

/-- (a + 256 - b) mod 256 (41_alu.md R140, R142). -/
def subBytes (a b : Byte) : Byte := BitVec.ofNat 8 (a.toNat + 256 - b.toNat)

/-- The flag of a - b: strictly greater, so 0 for equal operands (41_alu.md R140, R142; conflict C6). -/
def subFlag (a b : Byte) : Bool := decide (a.toNat > b.toNat)

/-- a >> 1 (41_alu.md R141). -/
def shrByte (a : Byte) : Byte := BitVec.ofNat 8 (a.toNat / 2)

/-- The bit SHR shifts out: bit 0 (41_alu.md R141). -/
def shrBitOut (a : Byte) : Bool := a.getLsbD 0

/-- (a << 1) mod 256 (41_alu.md R143). -/
def shlByte (a : Byte) : Byte := BitVec.ofNat 8 (a.toNat * 2)

/-- The bit SHL shifts out: bit 7 (41_alu.md R143). -/
def shlBitOut (a : Byte) : Bool := a.getLsbD 7

/-- `V[x] <- r`, then `V[15] <- f`: the flag is written last (41_alu.md R130). -/
def State.setRegFlag (s : State) (x : RegIx) (r : Byte) (f : Bool) : State :=
  (s.setReg x r).setReg regF (flagByte f)

/-- (I + v) mod 65536, with no flag (42_index_and_memory.md R161). -/
def addIndex (i : Word) (b : Byte) : Word := BitVec.ofNat 16 (i.toNat + b.toNat)

/-- 5 * v, the address of glyph v; at most 1275, so nothing wraps (42_index_and_memory.md R162). -/
def glyphAddr (b : Byte) : Word := BitVec.ofNat 16 (5 * b.toNat)

/-- The three digits FX33 stores: hundreds, tens, ones; the tens are modulo 100 under the quirk
(42_index_and_memory.md R163). -/
def bcdDigits (quirk : Bool) (b : Byte) : List Byte :=
  [ BitVec.ofNat 8 (b.toNat / 100),
    BitVec.ofNat 8 (if quirk then b.toNat / 10 % 100 else b.toNat / 10 % 10),
    BitVec.ofNat 8 (b.toNat % 10) ]

end Sys2Proof.Machine
end

