-- ==== Sys2Proof/Machine/Framebuffer.lean ====
section
/-! DEFINITION. The framebuffer: one cell, the cells a sprite toggles, drawing with collision
(10_state.md R29; 43_display.md R180 to R183). -/

namespace Sys2Proof.Machine

/-- Every cell false (43_display.md R180). -/
def blankDisplay : Display := Vector.replicate 64 (Vector.replicate 32 false)

/-- disp[c][r] (10_state.md R29). -/
def pixel (d : Display) (c : Fin 64) (r : Fin 32) : Bool := d[c][r]

/-- `disp[c][r] <- not disp[c][r]` (43_display.md R181). -/
def togglePixel (d : Display) (c : Fin 64) (r : Fin 32) : Display :=
  d.set c (d[c].set r (!pixel d c r))

/-- The cells one sprite byte toggles in row r from column x0 on: bit 7 - k is pixel k, columns wrap
modulo 64 (43_display.md R181). -/
def spriteRowCells (b : Byte) (x0 : Nat) (r : Fin 32) : List (Fin 64 × Fin 32) :=
  ((List.range 8).filter fun k => b.getLsbD (7 - k)).map fun k => (Fin.ofNat 64 (x0 + k), r)

/-- The cells a sprite toggles, from column x0 and row y0 on; rows wrap modulo 32 (43_display.md R181). -/
def spriteCells : List Byte → Nat → Nat → List (Fin 64 × Fin 32)
  | [], _, _ => []
  | b :: rest, x0, y0 => spriteRowCells b x0 (Fin.ofNat 32 y0) ++ spriteCells rest x0 (y0 + 1)

/-- Toggles the cells one after the other; the flag records whether a lit cell was among them, and once
set it stays (43_display.md R181, R182). -/
def drawCells : List (Fin 64 × Fin 32) → Display → Bool → Display × Bool
  | [], d, f => (d, f)
  | (c, r) :: rest, d, f => drawCells rest (togglePixel d c r) (f || pixel d c r)

/-- Draws a sprite at (x0, y0): the display after, and the collision (43_display.md R181). -/
def drawSprite (bytes : List Byte) (x0 y0 : Nat) (d : Display) : Display × Bool :=
  drawCells (spriteCells bytes x0 y0) d false

/-- The start column of a draw: V[x] mod 64 (43_display.md R181). -/
def drawColumn (b : Byte) : Nat := b.toNat % 64

/-- The start row of a draw: V[y] mod 32 (43_display.md R181). -/
def drawRow (b : Byte) : Nat := b.toNat % 32

/-- A render request: the collaborator gets a copy of the grid, and dirty is cleared (60_exceptions.md
R240). -/
def State.render (s : State) : State := { s with frames := s.frames ++ [s.disp], dirty := false }

/-- The flush of 00E0: a dirty display is rendered (43_display.md R180). -/
def State.flush (s : State) : State := if s.dirty then s.render else s

end Sys2Proof.Machine
end

