-- ==== Sys2Proof/Machine/Ops.lean ====
section
/-! DEFINITION. The operations the instructions share: completing with each kind of pc advance, taking a
fatal condition, the stack; and what a step does around an instruction: fetch, tick, inputs
(30_encoding.md R90, R91; 60_exceptions.md R220 to R243). -/

namespace Sys2Proof.Machine

/-! ### Ending an instruction (30_encoding.md R91) -/

/-- `pc <- a`, a natural number that nothing reduces (10_state.md R25). -/
def State.goTo (s : State) (a : Nat) : State := { s with pc := a }

/-- The instruction completes and the next pc is pc + 2 (R91). -/
def complete (s : State) : Result := .next (s.goTo (s.pc + 2))

/-- The instruction completes and writes `pc <- target` (R91). -/
def completeAt (target : Nat) (s : State) : Result := .next (s.goTo target)

/-- A skip: the next pc is pc + 4 when the condition holds and pc + 2 otherwise (R91; 40_control_flow.md
R110). -/
def completeSkip (cond : Bool) (s : State) : Result :=
  .next (s.goTo (if cond then s.pc + 4 else s.pc + 2))

/-! ### The core's exceptions (60_exceptions.md) -/

/-- `raise Fatal(k)`: status becomes Fatal(k) and nothing else changes (R228). The state s is the state
before the step. No instruction returns from it (R229). -/
def raiseFatal (k : FatalKind) (s : State) : Result := .next { s with status := .fatal k }

/-- The numeric code of a fatal condition (R220; the spec's own numbering, D26). -/
def FatalKind.code : FatalKind → Nat
  | .nullInstruction => 1
  | .stackUnderflow => 2
  | .selfJump => 3
  | .memoryOverflow => 4
  | .undefinedOpcode => 5
  | .stackOverflow => 6

/-! ### The stack (10_state.md R26) -/

/-- `push(a)`: appends a as the new top (R26). -/
def State.push (s : State) (a : Nat) : State := { s with stack := s.stack ++ [a] }

/-- The top of the stack, if there is one (R26). -/
def State.top (s : State) : Option Nat := s.stack.getLast?

/-- The state without the top of its stack (R26). -/
def State.dropTop (s : State) : State := { s with stack := s.stack.dropLast }

/-- The stack holds STACK_LIMIT entries; never, when the limit is infinite (40_control_flow.md R105). -/
def State.stackFull (s : State) : Bool :=
  match s.cfg.stackLimit with
  | none => false
  | some l => decide (l ≤ s.stack.length)

/-! ### Fetch (30_encoding.md R90; 20_memory.md R53) -/

/-- The word at pc, high byte first, when both its bytes lie below MEM_SIZE; an odd pc is fetched like
any other (20_memory.md R52 to R54). -/
def State.fetch (s : State) : Option Word :=
  if s.pc + 1 < s.cfg.memSize then
    some (wordOfBytes (s.readByte s.pc) (s.readByte (s.pc + 1)))
  else none

/-- The state with the word w stored where the next fetch reads it, ready to run it: Running and not
waiting. Where no whole word fits at pc, nothing is stored (log 32). -/
def State.placeWord (s : State) (w : Word) : State :=
  if s.pc + 1 < s.cfg.memSize then
    { s.writeBytes s.pc [highByte w, lowByte w] with status := .running, waiting := false }
  else s

/-! ### The tick (60_exceptions.md R236, R237) -/

/-- One timer at the end of a step: it loses 1 when a tick is due and it is not 0 (R236). -/
def countDown (due : Bool) (t : Byte) : Byte := if t ≠ 0 ∧ due = true then t - 1 else t

/-- A render is issued at the end of this step: dirty, not suppressed, and a tick is due (R237, R241). -/
def State.tickRenders (s : State) (due : Bool) : Bool := s.dirty && !s.cfg.renderOnClearOnly && due

/-- The end of a step, `do_tick` when a tick is due and nothing otherwise: both timers, the end of the
wait when DT reaches 0, then the render (R236, R237; 44_timers_and_keys.md R203). -/
def State.timerTick (s : State) (due : Bool) : State :=
  { s with
    st := countDown due s.st
    dt := countDown due s.dt
    waiting := s.waiting && !(due && countDown due s.dt == 0)
    frames := if s.tickRenders due then s.frames ++ [s.disp] else s.frames
    dirty := s.dirty && !s.tickRenders due }

/-- The input of the step just made is used up (log 2). -/
def State.useInput (s : State) : State :=
  { s with inputs := s.inputs.tail, stepNo := s.stepNo + 1 }

/-- What follows the instruction in a step that raised nothing (30_encoding.md R90, R92). -/
def State.endStep (s : State) : State := (s.timerTick s.input.tick).useInput

/-- The rest of the step after the instruction: a step that raised a fatal condition performs no tick
(60_exceptions.md R228). -/
def finishStep : Result → Result
  | .next t =>
    match t.status with
    | .running => .next t.endStep
    | .fatal _ => .next t
  | .fault f => .fault f
  | .refused r => .refused r

/-- The step of a Running core that is not waiting, given what it does with a decoded instruction: the
checks in the order of 60_exceptions.md R227. -/
def fetchDecodeExecute (run : Instr → State → Result) (s : State) : Result :=
  match s.fetch with
  | none => raiseFatal .memoryOverflow s
  | some w =>
    match decode w with
    | .null => raiseFatal .nullInstruction s
    | .undefined _ => raiseFatal .undefinedOpcode s
    | .instr i => finishStep (run i s)

/-- One call of `run_next()` (30_encoding.md R90): a Fatal core has no step (60_exceptions.md R228), a
waiting core only ticks (44_timers_and_keys.md R203). -/
def runNext (run : Instr → State → Result) (s : State) : Result :=
  match s.status with
  | .fatal k => .fault (.halted k)
  | .running => if s.waiting then .next s.endStep else fetchDecodeExecute run s

/-! ### Outputs and the program load -/

/-- The tone level after a step: ST != 0 (60_exceptions.md R242). -/
def State.tone (s : State) : Bool := s.st != 0

/-- `load_program(bytes)`: the image is copied to 0x200 on; an image that does not fit is refused
(70_reset_and_hazards.md R263; log 27). -/
def State.loadProgram (s : State) (bytes : List Byte) : Option State :=
  if bytes.length + 0x200 ≤ s.cfg.memSize then some (s.writeBytes 0x200 bytes) else none

end Sys2Proof.Machine
end

