-- ==== Sys2Proof/Machine/Alu.lean ====
section
/-! DEFINITION. The ALU instructions (41_alu.md). Operands are read before any write, and a flag is
written last (R130). None raises an exception. -/

namespace Sys2Proof.Machine

/-- 6XNN LD Vx, nn (R131). -/
def execLdImm (x : RegIx) (nn : Byte) (s : State) : Result := complete (s.setReg x nn)

/-- 7XNN ADD Vx, nn (R132): no flag. -/
def execAddImm (x : RegIx) (nn : Byte) (s : State) : Result :=
  complete (s.setReg x (addBytes (s.reg x) nn))

/-- 8XY0 LD Vx, Vy (R133). -/
def execLdReg (x y : RegIx) (s : State) : Result := complete (s.setReg x (s.reg y))

/-- 8XY1 OR Vx, Vy (R134): VF is not written. -/
def execOrReg (x y : RegIx) (s : State) : Result := complete (s.setReg x (s.reg x ||| s.reg y))

/-- 8XY2 AND Vx, Vy (R135): VF is not written. -/
def execAndReg (x y : RegIx) (s : State) : Result := complete (s.setReg x (s.reg x &&& s.reg y))

/-- 8XY3 XOR Vx, Vy (R136): VF is not written. -/
def execXorReg (x y : RegIx) (s : State) : Result := complete (s.setReg x (s.reg x ^^^ s.reg y))

/-- 8XY4 ADD Vx, Vy (R139): VF is the carry. -/
def execAddReg (x y : RegIx) (s : State) : Result :=
  complete (s.setRegFlag x (addBytes (s.reg x) (s.reg y)) (addCarry (s.reg x) (s.reg y)))

/-- 8XY5 SUB Vx, Vy (R140): VF is Vx > Vy. -/
def execSubReg (x y : RegIx) (s : State) : Result :=
  complete (s.setRegFlag x (subBytes (s.reg x) (s.reg y)) (subFlag (s.reg x) (s.reg y)))

/-- 8XY6 SHR Vx (R141): VF is the bit shifted out. -/
def execShr (x : RegIx) (s : State) : Result :=
  complete (s.setRegFlag x (shrByte (s.reg x)) (shrBitOut (s.reg x)))

/-- 8XY7 SUBN Vx, Vy (R142): VF is Vy > Vx. -/
def execSubnReg (x y : RegIx) (s : State) : Result :=
  complete (s.setRegFlag x (subBytes (s.reg y) (s.reg x)) (subFlag (s.reg y) (s.reg x)))

/-- 8XYE SHL Vx (R143): VF is the bit shifted out. -/
def execShl (x : RegIx) (s : State) : Result :=
  complete (s.setRegFlag x (shlByte (s.reg x)) (shlBitOut (s.reg x)))

/-- CXNN RND Vx, nn (R145): the step's random byte AND nn. -/
def execRnd (x : RegIx) (nn : Byte) (s : State) : Result :=
  complete (s.setReg x (s.input.rnd &&& nn))

end Sys2Proof.Machine
end

