-- ==== Sys2Proof/Machine/ControlFlow.lean ====
section
/-! DEFINITION. Control flow (40_control_flow.md): RET, SYS, JP, CALL, the skips, JP V0. -/

namespace Sys2Proof.Machine

/-- 00EE RET (R100): StackUnderflow on an empty stack, else pop and go to the popped address. -/
def execRet (s : State) : Result :=
  match s.top with
  | none => raiseFatal .stackUnderflow s
  | some a => completeAt a s.dropTop

/-- 0NNN SYS (R101): no effect but the pc advance; nnn is ignored. -/
def execSys (_nnn : Addr12) (s : State) : Result := complete s

/-- 1NNN JP (R102): SelfJump when the target is the jump's own address, checked before anything
changes. -/
def execJp (nnn : Addr12) (s : State) : Result :=
  if addrOf nnn = s.pc then raiseFatal .selfJump s else completeAt (addrOf nnn) s

/-- 2NNN CALL (R105): StackOverflow on a full stack, else push pc + 2 and go to nnn. -/
def execCall (nnn : Addr12) (s : State) : Result :=
  if s.stackFull then raiseFatal .stackOverflow s
  else completeAt (addrOf nnn) (s.push (s.pc + 2))

/-- 3XNN SE Vx, nn (R106). -/
def execSeImm (x : RegIx) (nn : Byte) (s : State) : Result := completeSkip (s.reg x == nn) s

/-- 4XNN SNE Vx, nn (R107). -/
def execSneImm (x : RegIx) (nn : Byte) (s : State) : Result := completeSkip (s.reg x != nn) s

/-- 5XYN SE Vx, Vy (R108). -/
def execSeReg (x y : RegIx) (s : State) : Result := completeSkip (s.reg x == s.reg y) s

/-- 9XYN SNE Vx, Vy (R109). -/
def execSneReg (x y : RegIx) (s : State) : Result := completeSkip (s.reg x != s.reg y) s

/-- BNNN JP V0, nnn (R111): the sum of V0 and nnn on naturals; a target equal to pc is not checked. -/
def execJpV0 (nnn : Addr12) (s : State) : Result :=
  completeAt ((s.reg 0).toNat + addrOf nnn) s

end Sys2Proof.Machine
end

