-- ==== Sys2Proof/Machine/Draw.lean ====
section
/-! DEFINITION. The framebuffer instructions (43_display.md): CLS and DRW. -/

namespace Sys2Proof.Machine

/-- 00E0 CLS (R180): a dirty display is rendered first, then every cell is false; dirty ends false. -/
def execCls (s : State) : Result := complete { s.flush with disp := blankDisplay }

/-- DXYN DRW Vx, Vy, n (R181): the n bytes at I drawn at (Vx mod 64, Vy mod 32); VF is the collision,
written after the coordinates were read; dirty is set, for n = 0 too. MemoryOverflow when the rows
reach past memory. -/
def execDrw (x y : RegIx) (n : Nibble) (s : State) : Result :=
  if s.fits s.indexAddr n.toNat then
    let drawn := drawSprite (s.readBytes s.indexAddr n.toNat) (drawColumn (s.reg x))
      (drawRow (s.reg y)) s.disp
    complete { s.setReg regF (flagByte drawn.2) with disp := drawn.1, dirty := true }
  else raiseFatal .memoryOverflow s

end Sys2Proof.Machine
end

