-- ==== Sys2Proof/Machine/IndexMemory.lean ====
section
/-! DEFINITION. The index register and the instructions that store and load through it
(42_index_and_memory.md). Bound checks come before any write; I is changed only by the first three. -/

namespace Sys2Proof.Machine

/-- ANNN LD I, nnn (R160). -/
def execLdI (nnn : Addr12) (s : State) : Result := complete { s with i := indexOf nnn }

/-- FX1E ADD I, Vx (R161): modulo 65536, no flag. -/
def execAddIVx (x : RegIx) (s : State) : Result := complete { s with i := addIndex s.i (s.reg x) }

/-- FX29 LD F, Vx (R162): I is 5 times the whole byte. -/
def execLdFVx (x : RegIx) (s : State) : Result := complete { s with i := glyphAddr (s.reg x) }

/-- FX33 LD B, Vx (R163): the decimal digits at I, I + 1, I + 2. -/
def execLdBVx (x : RegIx) (s : State) : Result :=
  if s.fits s.indexAddr 3 then
    complete (s.writeBytes s.indexAddr (bcdDigits s.cfg.bcdTensQuirk (s.reg x)))
  else raiseFatal .memoryOverflow s

/-- FX55 LD [I], Vx (R165): V0..Vx at I .. I + x. -/
def execLdMemVx (x : RegIx) (s : State) : Result :=
  if s.fits s.indexAddr (x.val + 1) then complete (s.writeBytes s.indexAddr (s.regBlock x))
  else raiseFatal .memoryOverflow s

/-- FX65 LD Vx, [I] (R166): V0..Vx from I .. I + x. -/
def execLdVxMem (x : RegIx) (s : State) : Result :=
  if s.fits s.indexAddr (x.val + 1) then complete (s.loadRegBlock x s.indexAddr)
  else raiseFatal .memoryOverflow s

end Sys2Proof.Machine
end

