-- ==== Sys2Proof/Machine/TimersKeys.lean ====
section
/-! DEFINITION. The timer instructions and the key stubs (44_timers_and_keys.md). -/

namespace Sys2Proof.Machine

/-- FX07 LD Vx, DT (R200). -/
def execLdVxDT (x : RegIx) (s : State) : Result := complete (s.setReg x s.dt)

/-- FX15 LD DT, Vx (R201): under delay_instruction_blocks a non-zero value also sets waiting (R203). -/
def execLdDTVx (x : RegIx) (s : State) : Result :=
  complete { s with
    dt := s.reg x
    waiting := if s.cfg.delayInstructionBlocks && s.reg x != 0 then true else s.waiting }

/-- FX18 LD ST, Vx (R202). -/
def execLdSTVx (x : RegIx) (s : State) : Result := complete { s with st := s.reg x }

/-- EX9E SKP Vx (R204): the source's stub, never skips. -/
def execSkp (_x : RegIx) (s : State) : Result := completeSkip false s

/-- EXA1 SKNP Vx (R205): the source's stub, never skips. -/
def execSknp (_x : RegIx) (s : State) : Result := completeSkip false s

/-- FX0A LD Vx, K (R206): the source's stub, writes 0 and does not wait. -/
def execLdVxK (x : RegIx) (s : State) : Result := complete (s.setReg x 0)

end Sys2Proof.Machine
end

