-- ==== Sys2Proof/Machine/Step.lean ====
section
/-! DEFINITION. One step of the core, one call of `run_next()` (30_encoding.md R90), and the placing of a
word where the next step fetches it. The parts are in Machine/Ops.lean. -/

namespace Sys2Proof.Machine

/-- One step (30_encoding.md R90). Its two inputs are `s.input` (log 2). -/
def step (s : State) : Host.Outcome State Fault Refusal := runNext exec s

/-- s with a word of the opcode table stored where the next step fetches (log 27, log 32). -/
def State.withFetchWord (s : State) (nbits w : Nat) : State := s.placeWord (tableWord nbits w)

end Sys2Proof.Machine
end

