-- ==== Sys2Proof/Safety.lean ====
section
/-! DEFINITION. The words claims use: what an instruction leaves unchanged, which instruction a state
runs next, the sprite as a set of cells, the invariant, runs. -/

namespace Sys2Proof.Machine

/-! ### Frames -/

/-- The parts of the state an instruction may write (10_state.md R20, 60_exceptions.md R240); pc is not
among them, since every instruction moves it. -/
inductive Part where
  | regs | index | stack | delay | sound | display | dirtyFlag | waitFlag | runStatus | memory | rendered
  deriving DecidableEq, Repr

/-- Every part of the state but those listed, and pc, is in t as it was in s. Memory is compared byte by
byte through the model's read; the parameters and the host's inputs never change. -/
def Frame (written : List Part) (s t : State) : Prop :=
  (Part.regs ∉ written → ∀ k, t.reg k = s.reg k) ∧
  (Part.index ∉ written → t.i = s.i) ∧
  (Part.stack ∉ written → t.stack = s.stack) ∧
  (Part.delay ∉ written → t.dt = s.dt) ∧
  (Part.sound ∉ written → t.st = s.st) ∧
  (Part.display ∉ written → ∀ c r, pixel t.disp c r = pixel s.disp c r) ∧
  (Part.dirtyFlag ∉ written → t.dirty = s.dirty) ∧
  (Part.waitFlag ∉ written → t.waiting = s.waiting) ∧
  (Part.runStatus ∉ written → t.status = s.status) ∧
  (Part.memory ∉ written → ∀ a, t.readByte a = s.readByte a) ∧
  (Part.rendered ∉ written → t.frames = s.frames) ∧
  t.cfg = s.cfg ∧ t.inputs = s.inputs ∧ t.stepNo = s.stepNo

/-- Every register but those listed is in t as it was in s. -/
def RegsKept (written : List RegIx) (s t : State) : Prop :=
  ∀ k, k ∉ written → t.reg k = s.reg k

/-- Every byte of memory outside the n bytes from a on reads in t as it did in s. -/
def BytesKept (a n : Nat) (s t : State) : Prop :=
  ∀ b, b < a ∨ a + n ≤ b → t.readByte b = s.readByte b

/-- s with the status Fatal(k) and nothing else changed (60_exceptions.md R228). -/
def State.fatalWith (s : State) (k : FatalKind) : State := { s with status := .fatal k }

/-! ### What a state runs next -/

/-- The instruction the next step executes: none while waiting, past memory, or at a word that is no
instruction (30_encoding.md R90). -/
def State.nextInstr (s : State) : Option Instr :=
  if s.waiting then none
  else match s.fetch with
    | none => none
    | some w =>
      match decode w with
      | .instr i => some i
      | .null => none
      | .undefined _ => none

/-! ### The sprite as a set of cells (43_display.md R181, R183) -/

/-- How many columns right of x0, or rows below y0, a cell lies, around the edge of the grid. -/
def wrapDistance (size start cell : Nat) : Nat := (cell + size - start % size) % size

/-- The sprite DRW Vx, Vy, n draws in s has a one bit on cell (c, r): the cell lies within 8 columns and
n rows of the start, and bit 7 - dx of the byte at I + dy is 1. -/
def spriteOn (s : State) (x y : RegIx) (n : Nibble) (c : Fin 64) (r : Fin 32) : Bool :=
  let dx := wrapDistance 64 (s.reg x).toNat c.val
  let dy := wrapDistance 32 (s.reg y).toNat r.val
  decide (dx < 8) && decide (dy < n.toNat) && (s.readByte (s.indexAddr + dy)).getLsbD (7 - dx)

/-! ### The invariant -/

/-- What holds of every state of a core from construction on: the parameters are in range, memory is in
canonical form, pc and the return addresses stay within 17 bits (10_state.md R25), the stack respects
STACK_LIMIT (R26), and the core waits only under delay_instruction_blocks with DT not 0 (R32,
44_timers_and_keys.md R203). -/
structure Inv (s : State) : Prop where
  params : s.cfg.wf = true
  memory : Memory.wf s.cfg s.mem = true
  pcBound : s.pc < 65540
  returnBound : ∀ a ∈ s.stack, a ≤ 65536
  depth : ∀ l, s.cfg.stackLimit = some l → s.stack.length ≤ l
  waitsUnderOption : s.waiting = true → s.cfg.delayInstructionBlocks = true
  waitsOnDelay : s.waiting = true → s.dt ≠ 0

/-! ### Runs -/

/-- Steps p s ticks t: from s the core makes one step for each entry of ticks, the entry being that
step's tick; each starts in a state that meets p, none raises a fatal condition, and t is where it
ends. -/
inductive Steps (p : State → Prop) : State → List Bool → State → Prop where
  | done (s : State) : Steps p s [] s
  | more (s u t : State) (ticks : List Bool) (hp : p s) (hstep : step s = .next u)
      (hrun : u.status = .running) (rest : Steps p u ticks t) : Steps p s (s.input.tick :: ticks) t

/-- The states a core can be in: constructed with parameters in range and loaded with an image that
fits (70_reset_and_hazards.md R264), then stepped, with any inputs supplied between steps
(60_exceptions.md R245). -/
inductive Reachable : State → Prop where
  | boot (c : Config) (image : List Byte) (s : State) (hc : c.wf = true)
      (hl : (State.resetWith c).loadProgram image = some s) : Reachable s
  | supply (s : State) (l : List StepInput) (h : Reachable s) : Reachable { s with inputs := l }
  | step (s t : State) (h : Reachable s) (hs : Sys2Proof.Machine.step s = .next t) : Reachable t

end Sys2Proof.Machine
end

