-- ==== Sys2Proof/Certificates/Slice0/Obligations.lean ====
section
/-! DEFINITION. The statements for the provers. A docstring names the rule a statement formalises, or
says which of its clauses rests on a decision of the spec (92_eei_decisions.md) or of the model's log. -/

open Sys2Proof Sys2Proof.Machine

/-! ### Encoding and decoding -/

/-- Decoding an encoded well-formed instruction gives it back, with every operand at every value the
encoding admits. The encoder and its zeros in ignored fields are the model's (log 35). -/
def Obligations.DecodeInvertsEncode : Prop :=
  ∀ i : Instr, i.wellFormed = true → decode (encode i) = .instr i

/-- A word that decodes to an instruction is that instruction's encoding, but for the bits the
instruction ignores: n of 5XYN and 9XYN (decision D10, log 18), y of 8XY6 and 8XYE. No other bit is
dropped. That the encoding has 0 in the ignored bits is the model's choice, its encoder being its own
(log 35). -/
def Obligations.WordIsItsEncodingButIgnoredBits : Prop :=
  ∀ (w : Word) (i : Instr), decode w = .instr i → i.wellFormed = true ∧
    encode i = w &&& (match i with
      | .seReg _ _ | .sneReg _ _ => 0xFFF0#16
      | .shr _ | .shl _ => 0xFF0F#16
      | _ => 0xFFFF#16)

/-- The Undefined words are exactly those listed: class 8 with n in 8 to D or F, class E with nn other
than 9E and A1, class F with nn other than the nine selectors; and the null word is 0000 alone. That
the unnamed words are Undefined is the spec's decision D9 (log 17), and that no word of classes 5 and 9
is among them its decision D10 (log 18). -/
def Obligations.UndefinedWordsAreThoseListed : Prop :=
  ∀ w : Word,
    (decode w = .null ↔ w = 0x0000#16) ∧
    ((∃ u, decode w = .undefined u) ↔ decode w = .undefined w) ∧
    (decode w = .undefined w ↔
      (fieldC w = 0x8 ∧ (fieldN w).toNat ∈ [0x8, 0x9, 0xA, 0xB, 0xC, 0xD, 0xF]) ∨
      (fieldC w = 0xE ∧ (fieldNN w).toNat ∉ [0x9E, 0xA1]) ∨
      (fieldC w = 0xF ∧
        (fieldNN w).toNat ∉ [0x07, 0x0A, 0x15, 0x18, 0x1E, 0x29, 0x33, 0x55, 0x65]))

/-- Words written out from the patterns of the opcode map decode to the instructions they stand for. -/
def Obligations.WordsWrittenOutDecode : Prop :=
  decode 0x00E0#16 = .instr .cls ∧ decode 0x1234#16 = .instr (.jp 0x234) ∧
  decode 0x6A2B#16 = .instr (.ldImm 0xA 0x2B) ∧ decode 0x81F5#16 = .instr (.subReg 1 15) ∧
  decode 0xA22A#16 = .instr (.ldI 0x22A) ∧ decode 0xD7A3#16 = .instr (.drw 7 0xA 3) ∧
  decode 0xF265#16 = .instr (.ldVxMem 2) ∧ decode 0xE0A1#16 = .instr (.sknp 0)

/-! ### The step -/

/-- The step of a Running core that does not wait runs the instruction whose word is at pc, high byte
first, at an odd pc too (decision D6, log 14): where exec leaves the core Running, the step ends with
the tick (decision D20, log 23) and the input used up; where exec raises a fatal condition, the step
ends there (decision D26). Where the input comes from and that it is used up, the head of the list
dropped and stepNo 1 more, is the model's (log 2, log 6). -/
def Obligations.StepRunsTheDecodedInstruction : Prop :=
  ∀ (s : State) (i : Instr) (w : Word),
    s.status = .running → s.waiting = false → s.pc + 1 < s.cfg.memSize →
    w.toNat = (s.readByte s.pc).toNat * 256 + (s.readByte (s.pc + 1)).toNat →
    decode w = .instr i →
    s.fetch = some w ∧
    (∀ t, exec i s = .next t → t.status = .running →
      step s = .next ((t.timerTick s.input.tick).useInput)) ∧
    (∀ t k, exec i s = .next t → t.status = .fatal k → step s = .next t)

/-- A Running core makes a step from every state: no word, operand or parameter stops the machine
without a next state. -/
def Obligations.RunningCoreAlwaysSteps : Prop :=
  ∀ s : State, s.status = .running → ∃ t, step s = .next t

/-- A core whose status is Fatal has no further step (the outcome Fault.halted is the model's, log 5). -/
def Obligations.FatalCoreHasNoStep : Prop :=
  ∀ (s : State) (k : FatalKind), s.status = .fatal k → step s = .fault (.halted k)

/-- A step that raises a fatal condition leaves the state before the step with the status changed, and
nothing else: no write, no pc advance, no tick, no frame (decision D26; the inputs too, log 6). -/
def Obligations.FatalStepChangesOnlyTheStatus : Prop :=
  ∀ (s t : State) (k : FatalKind), step s = .next t → t.status = .fatal k → t = s.fatalWith k

/-- Which fatal condition a step raises, and in what circumstance: each kind has only the causes the
rules list, and each of those causes does raise it (decisions D8, D9, D16, D29, D30). -/
def Obligations.FatalConditionsHaveTheListedCauses : Prop :=
  ∀ (s : State) (k : FatalKind), s.status = .running → s.waiting = false →
    (step s = .next (s.fatalWith k) ↔
      match k with
      | .memoryOverflow => s.cfg.memSize ≤ s.pc + 1 ∨
          (∃ x y n, s.nextInstr = some (.drw x y n) ∧ 0 < n.toNat ∧
            s.cfg.memSize ≤ s.i.toNat + n.toNat - 1) ∨
          (∃ x, s.nextInstr = some (.ldBVx x) ∧ s.cfg.memSize ≤ s.i.toNat + 2) ∨
          (∃ x, (s.nextInstr = some (.ldMemVx x) ∨ s.nextInstr = some (.ldVxMem x)) ∧
            s.cfg.memSize ≤ s.i.toNat + x.val)
      | .nullInstruction => s.fetch = some 0x0000#16
      | .undefinedOpcode => ∃ w, s.fetch = some w ∧ decode w = .undefined w
      | .stackUnderflow => s.nextInstr = some .ret ∧ s.stack = []
      | .selfJump => ∃ nnn : Addr12, s.nextInstr = some (.jp nnn) ∧ nnn.toNat = s.pc
      | .stackOverflow => ∃ (nnn : Addr12) (l : Nat), s.nextInstr = some (.call nnn) ∧
          s.cfg.stackLimit = some l ∧ l ≤ s.stack.length)

/-- A fetched word of 0x0000 ends the run with NullInstruction, at any pc whose two bytes are both
zero, with pc still the address of the null word. That its code is 1 is the spec's own numbering
(decision D26, log 28), and that nothing but the status changes is what every fatal condition does
(decision D26). -/
def Obligations.NullWordEndsTheRun : Prop :=
  FatalKind.nullInstruction.code = 1 ∧
  ∀ s : State, s.status = .running → s.waiting = false → s.pc + 1 < s.cfg.memSize →
    s.readByte s.pc = 0 → s.readByte (s.pc + 1) = 0 →
    ∃ t, step s = .next t ∧ t.status = .fatal .nullInstruction ∧ t.pc = s.pc ∧
      t = s.fatalWith .nullInstruction

/-- A waiting core fetches and executes nothing: its step is the tick alone, pc stays, and the wait
ends exactly at a tick that leaves DT at 0 (decision D23, log 25). The input used up, the model's own
(log 2), is set aside. -/
def Obligations.WaitingStepOnlyTicks : Prop :=
  ∀ s : State, s.status = .running → s.waiting = true →
    ∃ t, step s = .next t ∧ t.pc = s.pc ∧
      Frame [.delay, .sound, .waitFlag, .dirtyFlag, .rendered] s
        { t with inputs := s.inputs, stepNo := s.stepNo } ∧
      t.dt.toNat = s.dt.toNat - (if s.input.tick then 1 else 0) ∧
      (t.waiting = false ↔ s.input.tick = true ∧ t.dt = 0)

/-- A tick takes 1 from ST and from DT where they are not 0, never below 0, and ends the wait when DT is
then 0 (decision D23 for the wait); a step whose tick is not due leaves all three alone. The tick comes
at the end of every step that raises nothing: of a waiting step, and of one whose instruction led from
s to u. -/
def Obligations.TickCountsTheTimersDown : Prop :=
  ∀ s u : State, s.status = .running →
    (s.waiting = true ∧ u = s) ∨
      (∃ i, s.nextInstr = some i ∧ exec i s = .next u ∧ u.status = .running) →
    ∃ t, step s = .next t ∧
      (s.input.tick = false → t.st = u.st ∧ t.dt = u.dt ∧ t.waiting = u.waiting) ∧
      (s.input.tick = true → t.st.toNat = u.st.toNat - 1 ∧ t.dt.toNat = u.dt.toNat - 1 ∧
        (t.waiting = true ↔ u.waiting = true ∧ t.dt ≠ 0))

/-- A step that raises nothing ends by rendering the display exactly when a tick is due, the display is
dirty and render_on_clear_only is false; the frame is the display as the instruction left it, and dirty
is then false (decision D22; the list of frames is the model's, log 3). -/
def Obligations.TickRendersADirtyDisplay : Prop :=
  ∀ s u : State, s.status = .running →
    (s.waiting = true ∧ u = s) ∨
      (∃ i, s.nextInstr = some i ∧ exec i s = .next u ∧ u.status = .running) →
    ∃ t, step s = .next t ∧ t.disp = u.disp ∧
      (s.input.tick = true ∧ u.dirty = true ∧ s.cfg.renderOnClearOnly = false →
        t.frames = u.frames ++ [u.disp] ∧ t.dirty = false) ∧
      (¬ (s.input.tick = true ∧ u.dirty = true ∧ s.cfg.renderOnClearOnly = false) →
        t.frames = u.frames ∧ t.dirty = u.dirty)

/-- A step issues at most one frame; a frame is the display before the step, from the flush of CLS, or
the display after it, from the tick, and either leaves dirty false. -/
def Obligations.AtMostOneFramePerStep : Prop :=
  ∀ s t : State, step s = .next t →
    t.frames = s.frames ∨
    (t.frames = s.frames ++ [s.disp] ∧ s.nextInstr = some .cls ∧ s.dirty = true ∧ t.dirty = false) ∨
    (t.frames = s.frames ++ [t.disp] ∧ s.input.tick = true ∧ t.dirty = false)

/-- The tone level changes only in two ways: by FX18, or by a tick that takes ST from 1 to 0, which turns
it off (decision D21). -/
def Obligations.ToneChangesOnlyAtLoadOrTick : Prop :=
  ∀ s t : State, step s = .next t → t.tone ≠ s.tone →
    (∃ x, s.nextInstr = some (.ldSTVx x)) ∨
    (s.input.tick = true ∧ s.st = 1 ∧ s.tone = true ∧ t.tone = false)

/-- Over a run of completed steps in which no FX15 executes, DT falls by the number of ticks supplied,
down to 0 and no further; and over one in which no FX18 executes, so does ST. Steps without a tick,
however many, change neither (decision D20, log 23, conflict C8). That the ticks are those of the
states' own inputs is the model's (log 2). -/
def Obligations.TimersFallByTheTicksOfARun : Prop :=
  (∀ (s t : State) (ticks : List Bool),
    Steps (fun u => ∀ x, u.nextInstr ≠ some (.ldDTVx x)) s ticks t →
    t.dt.toNat = s.dt.toNat - ticks.count true) ∧
  (∀ (s t : State) (ticks : List Bool),
    Steps (fun u => ∀ x, u.nextInstr ≠ some (.ldSTVx x)) s ticks t →
    t.st.toNat = s.st.toNat - ticks.count true)

/-- The random byte is read by CXNN alone: every other instruction does the same whatever inputs the
host has supplied. The queue of inputs is the model's (log 2). -/
def Obligations.OnlyRndReadsTheHostInputs : Prop :=
  ∀ (i : Instr) (s t : State) (l : List StepInput) (k : Nat), (∀ x nn, i ≠ .rnd x nn) →
    exec i s = .next t →
    exec i { s with inputs := l, stepNo := k } = .next { t with inputs := l, stepNo := k }

/-- Which instructions may change each special register and memory: I by ANNN, FX1E, FX29; the stack by
2NNN and 00EE; DT by FX15; ST by FX18; waiting by FX15 (decision D23, log 25); dirty by DXYN and 00E0;
the display by the same two; memory by FX33 and FX55. The frames change only by 00E0 (the list of
frames is the model's, log 3; the tick is no instruction). No instruction changes the parameters (their
place in State is the model's, log 1). -/
def Obligations.SpecialStateHasTheListedWriters : Prop :=
  ∀ (i : Instr) (s t : State), exec i s = .next t →
    (t.i ≠ s.i → (∃ a, i = .ldI a) ∨ (∃ x, i = .addIVx x) ∨ (∃ x, i = .ldFVx x)) ∧
    (t.stack ≠ s.stack → i = .ret ∨ ∃ a, i = .call a) ∧
    (t.dt ≠ s.dt → ∃ x, i = .ldDTVx x) ∧
    (t.st ≠ s.st → ∃ x, i = .ldSTVx x) ∧
    (t.waiting ≠ s.waiting → ∃ x, i = .ldDTVx x) ∧
    (t.dirty ≠ s.dirty → i = .cls ∨ ∃ x y n, i = .drw x y n) ∧
    (t.disp ≠ s.disp → i = .cls ∨ ∃ x y n, i = .drw x y n) ∧
    (t.frames ≠ s.frames → i = .cls) ∧
    (t.mem ≠ s.mem → (∃ x, i = .ldBVx x) ∨ ∃ x, i = .ldMemVx x) ∧
    t.cfg = s.cfg

/-- Which instructions may change a V register: those that name it as x, FX65 for the registers up to x,
and for VF the five flag instructions and DXYN. -/
def Obligations.RegistersHaveTheListedWriters : Prop :=
  ∀ (i : Instr) (s t : State) (k : RegIx), exec i s = .next t → t.reg k ≠ s.reg k →
    (∃ nn, i = .ldImm k nn) ∨ (∃ nn, i = .addImm k nn) ∨ (∃ nn, i = .rnd k nn) ∨
    (∃ y, i = .ldReg k y ∨ i = .orReg k y ∨ i = .andReg k y ∨ i = .xorReg k y ∨ i = .addReg k y ∨
      i = .subReg k y ∨ i = .subnReg k y) ∨
    i = .shr k ∨ i = .shl k ∨ i = .ldVxDT k ∨ i = .ldVxK k ∨
    (∃ x, k ≤ x ∧ i = .ldVxMem x) ∨
    (k = regF ∧ ((∃ x y, i = .addReg x y ∨ i = .subReg x y ∨ i = .subnReg x y) ∨
      (∃ x, i = .shr x ∨ i = .shl x) ∨ ∃ x y n, i = .drw x y n))

/-! ### Control flow -/

/-- R100: RET raises StackUnderflow on an empty stack and changes nothing else; otherwise it pops the top
and goes there, with no further advance. -/
def Obligations.RetPopsOrUnderflows : Prop :=
  decode 0x00EE#16 = .instr .ret ∧
  ∀ s : State,
    (s.stack = [] → exec .ret s = .next (s.fatalWith .stackUnderflow)) ∧
    (∀ rest a, s.stack = rest ++ [a] →
      ∃ t, exec .ret s = .next t ∧ t.pc = a ∧ t.stack = rest ∧ Frame [.stack] s t)

/-- R101: every class-0 word but 0000, 00E0 and 00EE is SYS, whose nnn is ignored: the next pc is pc + 2
and nothing else changes. 0000 is the null word. -/
def Obligations.SysOnlyAdvancesPc : Prop :=
  decode 0x0000#16 = .null ∧
  (∀ w : Word, fieldC w = 0 → w ≠ 0x0000#16 → w ≠ 0x00E0#16 → w ≠ 0x00EE#16 →
    decode w = .instr (.sys (fieldNNN w))) ∧
  ∀ (nnn : Addr12) (s : State),
    ∃ t, exec (.sys nnn) s = .next t ∧ t.pc = s.pc + 2 ∧ Frame [] s t

/-- R102: JP raises SelfJump when nnn is the jump's own address and changes nothing else; otherwise the
next pc is nnn. -/
def Obligations.JpJumpsOrSelfJumps : Prop :=
  (∀ w : Word, fieldC w = 0x1 → decode w = .instr (.jp (fieldNNN w))) ∧
  ∀ (nnn : Addr12) (s : State),
    (nnn.toNat = s.pc → exec (.jp nnn) s = .next (s.fatalWith .selfJump)) ∧
    (nnn.toNat ≠ s.pc →
      ∃ t, exec (.jp nnn) s = .next t ∧ t.pc = nnn.toNat ∧ Frame [] s t)

/-- CALL pushes pc + 2 (decision D7, conflict C3) and goes to nnn; on a stack that already holds a finite
STACK_LIMIT it raises StackOverflow instead (decision D8). A call to itself is no SelfJump (D29). -/
def Obligations.CallPushesTheReturnAddress : Prop :=
  ∀ (nnn : Addr12) (s : State),
    ((∀ l, s.cfg.stackLimit = some l → s.stack.length < l) →
      ∃ t, exec (.call nnn) s = .next t ∧ t.pc = nnn.toNat ∧ t.stack = s.stack ++ [s.pc + 2] ∧
        Frame [.stack] s t) ∧
    (∀ l, s.cfg.stackLimit = some l → l ≤ s.stack.length →
      exec (.call nnn) s = .next (s.fatalWith .stackOverflow))

/-- A RET executed with the stack as a CALL left it resumes at the word after the call, with the stack
as before the call, whatever else the subroutine changed (decision D7). -/
def Obligations.RetResumesAfterTheCall : Prop :=
  ∀ (nnn : Addr12) (s u v : State), exec (.call nnn) s = .next u → u.status = .running →
    s.status = .running → v.stack = u.stack →
    ∃ t, exec .ret v = .next t ∧ t.pc = s.pc + 2 ∧ t.stack = s.stack

/-- R106, R107: SE Vx, nn skips when Vx equals nn and SNE Vx, nn when it does not; a skip adds 4 to pc
and any other execution 2. Nothing else changes. -/
def Obligations.ImmediateSkips : Prop :=
  (∀ w : Word, fieldC w = 0x3 → decode w = .instr (.seImm (fieldX w) (fieldNN w))) ∧
  (∀ w : Word, fieldC w = 0x4 → decode w = .instr (.sneImm (fieldX w) (fieldNN w))) ∧
  ∀ (x : RegIx) (nn : Byte) (s : State),
    (∃ t, exec (.seImm x nn) s = .next t ∧ Frame [] s t ∧
      (s.reg x = nn → t.pc = s.pc + 4) ∧ (s.reg x ≠ nn → t.pc = s.pc + 2)) ∧
    (∃ t, exec (.sneImm x nn) s = .next t ∧ Frame [] s t ∧
      (s.reg x ≠ nn → t.pc = s.pc + 4) ∧ (s.reg x = nn → t.pc = s.pc + 2))

/-- SE Vx, Vy and SNE Vx, Vy: the same with two registers, for every value of the ignored n of classes 5
and 9 (decision D10). -/
def Obligations.RegisterSkips : Prop :=
  (∀ w : Word, fieldC w = 0x5 → decode w = .instr (.seReg (fieldX w) (fieldY w))) ∧
  (∀ w : Word, fieldC w = 0x9 → decode w = .instr (.sneReg (fieldX w) (fieldY w))) ∧
  ∀ (x y : RegIx) (s : State),
    (∃ t, exec (.seReg x y) s = .next t ∧ Frame [] s t ∧
      (s.reg x = s.reg y → t.pc = s.pc + 4) ∧ (s.reg x ≠ s.reg y → t.pc = s.pc + 2)) ∧
    (∃ t, exec (.sneReg x y) s = .next t ∧ Frame [] s t ∧
      (s.reg x ≠ s.reg y → t.pc = s.pc + 4) ∧ (s.reg x = s.reg y → t.pc = s.pc + 2))

/-- JP V0, nnn goes to V0 + nnn, a sum that is not reduced (decision D4), its own address included
(decision D29). -/
def Obligations.JpV0AddsTheOffset : Prop :=
  ∀ (nnn : Addr12) (s : State),
    ∃ t, exec (.jpV0 nnn) s = .next t ∧ t.pc = (s.reg 0).toNat + nnn.toNat ∧ Frame [] s t

/-! ### ALU -/

/-- R131: LD Vx, nn. -/
def Obligations.LoadImmediate : Prop :=
  (∀ w : Word, fieldC w = 0x6 → decode w = .instr (.ldImm (fieldX w) (fieldNN w))) ∧
  ∀ (x : RegIx) (nn : Byte) (s : State),
    ∃ t, exec (.ldImm x nn) s = .next t ∧ t.reg x = nn ∧ RegsKept [x] s t ∧ t.pc = s.pc + 2 ∧
      Frame [.regs] s t

/-- R132: ADD Vx, nn, modulo 256, with no flag even on carry. -/
def Obligations.AddImmediateWraps : Prop :=
  (∀ w : Word, fieldC w = 0x7 → decode w = .instr (.addImm (fieldX w) (fieldNN w))) ∧
  ∀ (x : RegIx) (nn : Byte) (s : State),
    ∃ t, exec (.addImm x nn) s = .next t ∧
      (t.reg x).toNat = ((s.reg x).toNat + nn.toNat) % 256 ∧ RegsKept [x] s t ∧
      t.pc = s.pc + 2 ∧ Frame [.regs] s t

/-- R133: LD Vx, Vy. -/
def Obligations.CopyRegister : Prop :=
  (∀ w : Word, fieldC w = 0x8 → fieldN w = 0x0#4 →
    decode w = .instr (.ldReg (fieldX w) (fieldY w))) ∧
  ∀ (x y : RegIx) (s : State),
    ∃ t, exec (.ldReg x y) s = .next t ∧ t.reg x = s.reg y ∧ RegsKept [x] s t ∧
      t.pc = s.pc + 2 ∧ Frame [.regs] s t

/-- OR, AND and XOR: each bit of Vx becomes the operation on the bits of Vx and Vy, and VF is not written
unless it is Vx (decision D12). -/
def Obligations.LogicOperations : Prop :=
  ∀ (x y : RegIx) (s : State),
    (∃ t, exec (.orReg x y) s = .next t ∧
      (∀ b, (t.reg x).getLsbD b = ((s.reg x).getLsbD b || (s.reg y).getLsbD b)) ∧
      RegsKept [x] s t ∧ t.pc = s.pc + 2 ∧ Frame [.regs] s t) ∧
    (∃ t, exec (.andReg x y) s = .next t ∧
      (∀ b, (t.reg x).getLsbD b = ((s.reg x).getLsbD b && (s.reg y).getLsbD b)) ∧
      RegsKept [x] s t ∧ t.pc = s.pc + 2 ∧ Frame [.regs] s t) ∧
    (∃ t, exec (.xorReg x y) s = .next t ∧
      (∀ b, (t.reg x).getLsbD b = ((s.reg x).getLsbD b ^^ (s.reg y).getLsbD b)) ∧
      RegsKept [x] s t ∧ t.pc = s.pc + 2 ∧ Frame [.regs] s t)

/-- ADD Vx, Vy: the sum modulo 256 in Vx, the carry of the exact sum in VF. For x = F VF ends as the
carry: the flag is written last (decision D11). -/
def Obligations.AddRegistersWithCarry : Prop :=
  ∀ (x y : RegIx) (s : State),
    ∃ t, exec (.addReg x y) s = .next t ∧
      (x ≠ 15 → (t.reg x).toNat = ((s.reg x).toNat + (s.reg y).toNat) % 256) ∧
      t.reg 15 = (if 255 < (s.reg x).toNat + (s.reg y).toNat then 1 else 0) ∧
      RegsKept [x, 15] s t ∧ t.pc = s.pc + 2 ∧ Frame [.regs] s t

/-- SUB Vx, Vy and SUBN Vx, Vy: the difference modulo 256 in Vx, and VF 1 exactly when the minuend is
strictly greater (conflict C6), written last (decision D11). -/
def Obligations.SubtractRegistersWithFlag : Prop :=
  ∀ (x y : RegIx) (s : State),
    (∃ t, exec (.subReg x y) s = .next t ∧
      (x ≠ 15 → (t.reg x).toNat = ((s.reg x).toNat + 256 - (s.reg y).toNat) % 256) ∧
      t.reg 15 = (if (s.reg y).toNat < (s.reg x).toNat then 1 else 0) ∧
      RegsKept [x, 15] s t ∧ t.pc = s.pc + 2 ∧ Frame [.regs] s t) ∧
    (∃ t, exec (.subnReg x y) s = .next t ∧
      (x ≠ 15 → (t.reg x).toNat = ((s.reg y).toNat + 256 - (s.reg x).toNat) % 256) ∧
      t.reg 15 = (if (s.reg x).toNat < (s.reg y).toNat then 1 else 0) ∧
      RegsKept [x, 15] s t ∧ t.pc = s.pc + 2 ∧ Frame [.regs] s t)

/-- R141, R143, R144: SHR and SHL shift Vx by one and leave in VF the bit shifted out, whatever goes to
Vx, x = F included; y is not read. -/
def Obligations.ShiftsLeaveTheBitShiftedOut : Prop :=
  (∀ w : Word, fieldC w = 0x8 → fieldN w = 0x6#4 → decode w = .instr (.shr (fieldX w))) ∧
  (∀ w : Word, fieldC w = 0x8 → fieldN w = 0xE#4 → decode w = .instr (.shl (fieldX w))) ∧
  ∀ (x : RegIx) (s : State),
    (∃ t, exec (.shr x) s = .next t ∧
      (x ≠ 15 → (t.reg x).toNat = (s.reg x).toNat / 2) ∧
      (t.reg 15).toNat = (s.reg x).toNat % 2 ∧
      RegsKept [x, 15] s t ∧ t.pc = s.pc + 2 ∧ Frame [.regs] s t) ∧
    (∃ t, exec (.shl x) s = .next t ∧
      (x ≠ 15 → (t.reg x).toNat = (s.reg x).toNat * 2 % 256) ∧
      (t.reg 15).toNat = (s.reg x).toNat / 128 ∧
      RegsKept [x, 15] s t ∧ t.pc = s.pc + 2 ∧ Frame [.regs] s t)

/-- RND Vx, nn: the random byte the host supplied for the step, AND nn. That it is the first of the
queue of inputs is the model's (log 2). -/
def Obligations.RandomAnd : Prop :=
  ∀ (x : RegIx) (nn : Byte) (s : State) (inp : StepInput) (rest : List StepInput),
    s.inputs = inp :: rest →
    ∃ t, exec (.rnd x nn) s = .next t ∧
      (∀ b, (t.reg x).getLsbD b = (inp.rnd.getLsbD b && nn.getLsbD b)) ∧
      RegsKept [x] s t ∧ t.pc = s.pc + 2 ∧ Frame [.regs] s t

/-- RND Vx, nn completes whether or not the host has supplied an input, and the result never has a bit
that nn lacks. Every byte is possible (decision D27, log 29), and completing with none supplied, on the
free value Config.hostRnd, is the model's (log 2); the value itself is in RandomAnd. -/
def Obligations.RandomAndCompletesOnAnyInput : Prop :=
  ∀ (x : RegIx) (nn : Byte) (s : State),
    ∃ t, exec (.rnd x nn) s = .next t ∧ (t.reg x).toNat ≤ nn.toNat ∧ t.reg x &&& nn = t.reg x ∧
      RegsKept [x] s t ∧ t.pc = s.pc + 2 ∧ Frame [.regs] s t

/-! ### Index register and memory -/

/-- R160: LD I, nnn, zero-extended. -/
def Obligations.LoadIndex : Prop :=
  (∀ w : Word, fieldC w = 0xA → decode w = .instr (.ldI (fieldNNN w))) ∧
  ∀ (nnn : Addr12) (s : State),
    ∃ t, exec (.ldI nnn) s = .next t ∧ t.i.toNat = nnn.toNat ∧ t.pc = s.pc + 2 ∧
      Frame [.index] s t

/-- ADD I, Vx wraps modulo 65536 and writes no flag (decision D3); LD F, Vx sets I to 5 times the whole
byte (decision D31). -/
def Obligations.IndexArithmetic : Prop :=
  ∀ (x : RegIx) (s : State),
    (∃ t, exec (.addIVx x) s = .next t ∧
      t.i.toNat = (s.i.toNat + (s.reg x).toNat) % 65536 ∧ t.pc = s.pc + 2 ∧ Frame [.index] s t) ∧
    (∃ t, exec (.ldFVx x) s = .next t ∧ t.i.toNat = 5 * (s.reg x).toNat ∧ t.pc = s.pc + 2 ∧
      Frame [.index] s t)

/-- LD B, Vx stores hundreds, tens and ones at I, I + 1, I + 2 (decision D13; tens modulo 100 under the
quirk) and changes no other byte; where the three bytes do not fit it raises MemoryOverflow and nothing
changes (decision D15). The premise is that memory is in canonical form. -/
def Obligations.BcdStoresTheDigits : Prop :=
  ∀ (x : RegIx) (s : State), Memory.wf s.cfg s.mem = true →
    (s.i.toNat + 2 < s.cfg.memSize →
      ∃ t, exec (.ldBVx x) s = .next t ∧
        (t.readByte s.i.toNat).toNat = (s.reg x).toNat / 100 ∧
        (t.readByte (s.i.toNat + 1)).toNat =
          (s.reg x).toNat / 10 % (if s.cfg.bcdTensQuirk then 100 else 10) ∧
        (t.readByte (s.i.toNat + 2)).toNat = (s.reg x).toNat % 10 ∧
        BytesKept s.i.toNat 3 s t ∧ t.pc = s.pc + 2 ∧ Frame [.memory] s t) ∧
    (s.cfg.memSize ≤ s.i.toNat + 2 →
      exec (.ldBVx x) s = .next (s.fatalWith .memoryOverflow))

/-- LD [I], Vx stores V0..Vx at I .. I + x and changes no other byte and not I (decision D14); where the
range reaches MEM_SIZE it raises MemoryOverflow before any byte is written (decision D15). The premise
is that memory is in canonical form. -/
def Obligations.DumpStoresTheRegisters : Prop :=
  ∀ (x : RegIx) (s : State), Memory.wf s.cfg s.mem = true →
    (s.i.toNat + x.val < s.cfg.memSize →
      ∃ t, exec (.ldMemVx x) s = .next t ∧
        (∀ k, k ≤ x → t.readByte (s.i.toNat + k.val) = s.reg k) ∧
        BytesKept s.i.toNat (x.val + 1) s t ∧ t.pc = s.pc + 2 ∧ Frame [.memory] s t) ∧
    (s.cfg.memSize ≤ s.i.toNat + x.val →
      exec (.ldMemVx x) s = .next (s.fatalWith .memoryOverflow))

/-- LD Vx, [I] loads V0..Vx from I .. I + x and changes no other register and not I (decision D14); where
the range reaches MEM_SIZE it raises MemoryOverflow before any register is written (decision D15). -/
def Obligations.LoadFillsTheRegisters : Prop :=
  ∀ (x : RegIx) (s : State),
    (s.i.toNat + x.val < s.cfg.memSize →
      ∃ t, exec (.ldVxMem x) s = .next t ∧
        (∀ k, k ≤ x → t.reg k = s.readByte (s.i.toNat + k.val)) ∧
        (∀ k, x < k → t.reg k = s.reg k) ∧ t.pc = s.pc + 2 ∧ Frame [.regs] s t) ∧
    (s.cfg.memSize ≤ s.i.toNat + x.val →
      exec (.ldVxMem x) s = .next (s.fatalWith .memoryOverflow))

/-- FX55 and later FX65 with the same x and I, memory unchanged between them, restore V0..Vx exactly,
whatever happened to the registers (a derived rule of the spec; decision D14). The premise is that
memory is in canonical form. -/
def Obligations.DumpThenLoadRestoresTheRegisters : Prop :=
  ∀ (x : RegIx) (s u v : State), Memory.wf s.cfg s.mem = true →
    s.i.toNat + x.val < s.cfg.memSize → exec (.ldMemVx x) s = .next u →
    v.cfg = u.cfg → v.mem = u.mem → v.i = u.i →
    ∃ t, exec (.ldVxMem x) v = .next t ∧ t.i = s.i ∧ ∀ k, k ≤ x → t.reg k = s.reg k

/-- A word that FX55 stores at the next pc is the word the next step fetches: fetch is coherent with data
writes (a derived rule of the spec). The premise is that memory is in canonical form. -/
def Obligations.StoredWordIsFetchedNext : Prop :=
  ∀ (x j k : RegIx) (s : State), Memory.wf s.cfg s.mem = true →
    s.i.toNat + x.val < s.cfg.memSize → k.val = j.val + 1 → k ≤ x → s.i.toNat + j.val = s.pc + 2 →
    ∃ t w, exec (.ldMemVx x) s = .next t ∧ t.fetch = some w ∧
      w.toNat = (s.reg j).toNat * 256 + (s.reg k).toNat

/-- Two memories in canonical form that read alike at every address are the same data. -/
def Obligations.CanonicalMemoryIsUnique : Prop :=
  ∀ (c : Config) (m m' : Memory), Memory.wf c m = true → Memory.wf c m' = true →
    (∀ a, memRead c m a = memRead c m' a) → m = m'

/-! ### Display -/

/-- CLS renders the display first when it is dirty, then makes every cell false and leaves dirty false,
whatever render_on_clear_only is (decision D22). The list of frames is the model's (log 3). -/
def Obligations.ClsFlushesThenClears : Prop :=
  ∀ s : State, ∃ t, exec .cls s = .next t ∧ (∀ c r, pixel t.disp c r = false) ∧ t.dirty = false ∧
    t.frames = (if s.dirty then s.frames ++ [s.disp] else s.frames) ∧ t.pc = s.pc + 2 ∧
    Frame [.display, .dirtyFlag, .rendered] s t

/-- DRW flips exactly the cells on which the sprite has a one bit, wrapped around both edges, sets dirty
(for n = 0 too, decision D17), and writes no register but VF; bit 7 is the leftmost pixel and rows that
reach past memory raise MemoryOverflow with nothing changed (decision D16). -/
def Obligations.DrawXorsTheSprite : Prop :=
  ∀ (x y : RegIx) (n : Nibble) (s : State),
    (n.toNat = 0 ∨ s.i.toNat + n.toNat - 1 < s.cfg.memSize →
      ∃ t, exec (.drw x y n) s = .next t ∧
        (∀ c r, pixel t.disp c r = (pixel s.disp c r ^^ spriteOn s x y n c r)) ∧
        t.dirty = true ∧ RegsKept [15] s t ∧ t.pc = s.pc + 2 ∧
        Frame [.regs, .display, .dirtyFlag] s t) ∧
    (0 < n.toNat → s.cfg.memSize ≤ s.i.toNat + n.toNat - 1 →
      exec (.drw x y n) s = .next (s.fatalWith .memoryOverflow))

/-- R182: after a draw VF is 1 when at least one cell changed from true to false, and 0 otherwise. -/
def Obligations.DrawCollisionFlag : Prop :=
  ∀ (x y : RegIx) (n : Nibble) (s : State),
    n.toNat = 0 ∨ s.i.toNat + n.toNat - 1 < s.cfg.memSize →
    ∃ t, exec (.drw x y n) s = .next t ∧
      ((∃ c r, pixel s.disp c r = true ∧ pixel t.disp c r = false) → t.reg 15 = 1) ∧
      ((¬ ∃ c r, pixel s.disp c r = true ∧ pixel t.disp c r = false) → t.reg 15 = 0)

/-- Drawing the same sprite twice at the same place returns the display to what it was, and the second
draw reports a collision exactly when the first lit a cell (a derived rule of the spec). The coordinate
registers are not VF, which the first draw writes. -/
def Obligations.DrawingTwiceRestoresTheDisplay : Prop :=
  ∀ (x y : RegIx) (n : Nibble) (s u t : State), x ≠ 15 → y ≠ 15 →
    n.toNat = 0 ∨ s.i.toNat + n.toNat - 1 < s.cfg.memSize →
    exec (.drw x y n) s = .next u → exec (.drw x y n) u = .next t →
    t.disp = s.disp ∧
    (t.reg 15 = 1 ↔ ∃ c r, pixel s.disp c r = false ∧ pixel u.disp c r = true)

/-- A draw whose sprite rows are all zero leaves every cell as it was and sets VF to 0 (a derived rule
of the spec). It sets dirty all the same; for n = 0, which checks no address, that is the spec's
decision D17, and that a draw past memory is left to another statement its decision D16 (log 21). -/
def Obligations.ZeroSpriteDrawsNothing : Prop :=
  ∀ (x y : RegIx) (n : Nibble) (s : State),
    n.toNat = 0 ∨ s.i.toNat + n.toNat - 1 < s.cfg.memSize →
    (∀ k, k < n.toNat → s.readByte (s.i.toNat + k) = 0) →
    ∃ t, exec (.drw x y n) s = .next t ∧ (∀ c r, pixel t.disp c r = pixel s.disp c r) ∧
      t.reg 15 = 0 ∧ t.dirty = true

/-! ### Timers and keys -/

/-- R200: LD Vx, DT reads DT as the step before left it: this step's tick comes after the instruction. -/
def Obligations.ReadDelayTimer : Prop :=
  (∀ w : Word, fieldC w = 0xF → fieldNN w = 0x07#8 → decode w = .instr (.ldVxDT (fieldX w))) ∧
  ∀ (x : RegIx) (s : State),
    (∃ t, exec (.ldVxDT x) s = .next t ∧ t.reg x = s.dt ∧ RegsKept [x] s t ∧ t.pc = s.pc + 2 ∧
      Frame [.regs] s t) ∧
    (s.status = .running → s.nextInstr = some (.ldVxDT x) →
      ∃ t, step s = .next t ∧ t.reg x = s.dt)

/-- LD DT, Vx sets DT; under delay_instruction_blocks a value other than 0 also starts the wait (decision
D23). LD ST, Vx sets ST and so the tone (decision D21). -/
def Obligations.SetTimers : Prop :=
  ∀ (x : RegIx) (s : State),
    (∃ t, exec (.ldDTVx x) s = .next t ∧ t.dt = s.reg x ∧
      (s.cfg.delayInstructionBlocks = true ∧ s.reg x ≠ 0 → t.waiting = true) ∧
      (¬ (s.cfg.delayInstructionBlocks = true ∧ s.reg x ≠ 0) → t.waiting = s.waiting) ∧
      t.pc = s.pc + 2 ∧ Frame [.delay, .waitFlag] s t) ∧
    (∃ t, exec (.ldSTVx x) s = .next t ∧ t.st = s.reg x ∧ (t.tone = true ↔ s.reg x ≠ 0) ∧
      t.pc = s.pc + 2 ∧ Frame [.sound] s t)

/-- R204, R205, R206: SKP and SKNP never skip, whatever Vx is, and LD Vx, K writes 0 and does not wait. -/
def Obligations.KeyStubs : Prop :=
  (∀ w : Word, fieldC w = 0xE → fieldNN w = 0x9E#8 → decode w = .instr (.skp (fieldX w))) ∧
  (∀ w : Word, fieldC w = 0xE → fieldNN w = 0xA1#8 → decode w = .instr (.sknp (fieldX w))) ∧
  (∀ w : Word, fieldC w = 0xF → fieldNN w = 0x0A#8 → decode w = .instr (.ldVxK (fieldX w))) ∧
  ∀ (x : RegIx) (s : State),
    (∃ t, exec (.skp x) s = .next t ∧ t.pc = s.pc + 2 ∧ Frame [] s t) ∧
    (∃ t, exec (.sknp x) s = .next t ∧ t.pc = s.pc + 2 ∧ Frame [] s t) ∧
    (∃ t, exec (.ldVxK x) s = .next t ∧ t.reg x = 0 ∧ RegsKept [x] s t ∧ t.pc = s.pc + 2 ∧
      Frame [.regs] s t)

/-! ### Reset, load and the invariant -/

/-- The state after construction, for every value of the parameters: the font and zeros in memory, zero
registers and timers, pc 0x200, an empty stack, a blank display. That I is 0, dirty and waiting are
false and the status is Running is the spec's decision D24 (log 26). -/
def Obligations.ConstructionState : Prop :=
  ∀ c : Config,
    (∀ (a : Nat) (h : a < 80), (State.resetWith c).readByte a = c.font[a]) ∧
    (∀ a, 80 ≤ a → (State.resetWith c).readByte a = 0) ∧
    (∀ k, (State.resetWith c).reg k = 0) ∧
    (State.resetWith c).pc = 0x200 ∧ (State.resetWith c).stack = [] ∧
    (State.resetWith c).dt = 0 ∧ (State.resetWith c).st = 0 ∧
    (∀ x y, pixel (State.resetWith c).disp x y = false) ∧
    (State.resetWith c).i = 0 ∧ (State.resetWith c).dirty = false ∧
    (State.resetWith c).waiting = false ∧ (State.resetWith c).status = .running

/-- Loading a program into a constructed core copies an image that fits to 0x200 on and changes nothing
else, and the first step then fetches its first word; an image that does not fit is refused (decision
D25). -/
def Obligations.LoadProgramPlacesTheImage : Prop :=
  ∀ (c : Config) (image : List Byte),
    (image.length + 0x200 ≤ c.memSize →
      ∃ t, (State.resetWith c).loadProgram image = some t ∧
        (∀ k (h : k < image.length), t.readByte (0x200 + k) = image[k]) ∧
        BytesKept 0x200 image.length (State.resetWith c) t ∧ t.pc = 0x200 ∧
        Frame [.memory] (State.resetWith c) t ∧
        (∀ b0 b1 rest, image = b0 :: b1 :: rest →
          ∃ w, t.fetch = some w ∧ w.toNat = b0.toNat * 256 + b1.toNat)) ∧
    (c.memSize < image.length + 0x200 → (State.resetWith c).loadProgram image = none)

/-- A constructed core meets the invariant, and so does one loaded with a program that fits (decision
D25, log 27). In the invariant the ranges of the parameters are those of R6 with decision D2 (log 36),
canonical memory is the model's (log 9), the 17 bits rest on decisions D2 and D4 (log 13), the limit of
the stack on D8 (log 16) and the wait on D23 (log 25); the values at construction are partly decision
D24 (log 26). -/
def Obligations.ConstructionMeetsTheInvariant : Prop :=
  ∀ c : Config, c.wf = true → Inv (State.resetWith c) ∧
    ∀ image t, (State.resetWith c).loadProgram image = some t → Inv t

/-- Every step keeps the invariant: parameters in range, memory canonical, pc and return addresses
within 17 bits, the stack within its limit, waiting only under the option and with DT not 0. In it the
ranges of the parameters are those of R6 with decision D2 (log 36), canonical memory is the model's
(log 9), the 17 bits rest on decisions D2 and D4 (log 13), the limit of the stack on D8 (log 16) and
the wait on D23 (log 25). -/
def Obligations.StepKeepsTheInvariant : Prop :=
  ∀ s t : State, Inv s → step s = .next t → Inv t

/-- Every state of a core, from construction and load on, under any inputs, meets the invariant; in
particular with delay_instruction_blocks false it never waits. In the invariant the ranges of the
parameters are those of R6 with decision D2 (log 36), canonical memory is the model's (log 9), the 17
bits rest on decisions D2 and D4 (log 13), the limit of the stack on D8 (log 16) and the wait on D23
(log 25); the supply of inputs between steps is the model's (log 2). -/
def Obligations.ReachableStatesMeetTheInvariant : Prop :=
  ∀ s : State, Reachable s → Inv s ∧
    (s.cfg.delayInstructionBlocks = false → s.waiting = false)
end

