-- ==== Sys2Proof/Laws/Decode.lean ====
section
/-! SUPPORT. The fields of a word as numbers, the fields of each encoded shape, and words from bytes
(30_encoding.md R72; 20_memory.md R53). -/

namespace Sys2Proof

theorem fieldC_eq (w : Word) : fieldC w = w.toNat / 4096 := by
  have := w.isLt
  simp only [fieldC, BitVec.extractLsb'_toNat, Nat.shiftRight_eq_div_pow]; omega

theorem fieldX_val (w : Word) : (fieldX w).val = w.toNat / 256 % 16 := by
  simp [fieldX, Nat.shiftRight_eq_div_pow]

theorem fieldY_val (w : Word) : (fieldY w).val = w.toNat / 16 % 16 := by
  simp [fieldY, Nat.shiftRight_eq_div_pow]

theorem toNat_fieldN (w : Word) : (fieldN w).toNat = w.toNat % 16 := by simp [fieldN]

theorem toNat_fieldNN (w : Word) : (fieldNN w).toNat = w.toNat % 256 := by simp [fieldNN]

theorem toNat_fieldNNN (w : Word) : (fieldNNN w).toNat = w.toNat % 4096 := by simp [fieldNNN]

theorem toNat_wordNNN {c : Nat} (hc : c < 16) (nnn : Addr12) :
    (wordNNN c nnn).toNat = c * 4096 + nnn.toNat := by
  have := nnn.isLt
  simp [wordNNN]; omega

theorem toNat_wordXNN {c : Nat} (hc : c < 16) (x : RegIx) (nn : Byte) :
    (wordXNN c x nn).toNat = c * 4096 + x.val * 256 + nn.toNat := by
  have := nn.isLt
  have := x.isLt
  simp [wordXNN]; omega

theorem toNat_wordXYN {c : Nat} (hc : c < 16) (x y : RegIx) (n : Nibble) :
    (wordXYN c x y n).toNat = c * 4096 + x.val * 256 + y.val * 16 + n.toNat := by
  have := n.isLt
  have := x.isLt
  have := y.isLt
  simp [wordXYN]; omega

/-- The fields of an encoded word with nnn. -/
theorem fields_wordNNN {c : Nat} (hc : c < 16) (nnn : Addr12) :
    fieldC (wordNNN c nnn) = c ∧ fieldNNN (wordNNN c nnn) = nnn := by
  have := nnn.isLt
  refine ⟨?_, BitVec.eq_of_toNat_eq ?_⟩
  · rw [fieldC_eq, toNat_wordNNN hc]; omega
  · rw [toNat_fieldNNN, toNat_wordNNN hc]; omega

/-- The fields of an encoded word with x and nn. -/
theorem fields_wordXNN {c : Nat} (hc : c < 16) (x : RegIx) (nn : Byte) :
    fieldC (wordXNN c x nn) = c ∧ fieldX (wordXNN c x nn) = x ∧ fieldNN (wordXNN c x nn) = nn := by
  have := nn.isLt
  have := x.isLt
  refine ⟨?_, Fin.ext ?_, BitVec.eq_of_toNat_eq ?_⟩
  · rw [fieldC_eq, toNat_wordXNN hc]; omega
  · rw [fieldX_val, toNat_wordXNN hc]; omega
  · rw [toNat_fieldNN, toNat_wordXNN hc]; omega

/-- The fields of an encoded word with x, y and n. -/
theorem fields_wordXYN {c : Nat} (hc : c < 16) (x y : RegIx) (n : Nibble) :
    fieldC (wordXYN c x y n) = c ∧ fieldX (wordXYN c x y n) = x ∧
      fieldY (wordXYN c x y n) = y ∧ fieldN (wordXYN c x y n) = n := by
  have := n.isLt
  have := x.isLt
  have := y.isLt
  refine ⟨?_, Fin.ext ?_, Fin.ext ?_, BitVec.eq_of_toNat_eq ?_⟩
  · rw [fieldC_eq, toNat_wordXYN hc]; omega
  · rw [fieldX_val, toNat_wordXYN hc]; omega
  · rw [fieldY_val, toNat_wordXYN hc]; omega
  · rw [toNat_fieldN, toNat_wordXYN hc]; omega

theorem toNat_wordOfBytes (hi lo : Byte) :
    (wordOfBytes hi lo).toNat = hi.toNat * 256 + lo.toNat := by
  have := hi.isLt
  have := lo.isLt
  simp [wordOfBytes]; omega

/-- A word laid out in memory order reads back as the word. -/
@[simp] theorem wordOfBytes_highByte_lowByte (w : Word) :
    wordOfBytes (highByte w) (lowByte w) = w := by
  have := w.isLt
  refine BitVec.eq_of_toNat_eq ?_
  rw [toNat_wordOfBytes]
  simp only [highByte, lowByte, BitVec.extractLsb'_toNat, Nat.shiftRight_eq_div_pow]; omega

end Sys2Proof
end

