-- ==== Sys2Proof/Laws/State.lean ====
section
/-! SUPPORT. One lemma per field per update of State, each true by rfl, so that no later proof unfolds a
record update. -/

namespace Sys2Proof.Machine

variable (s : State)

/-! ### State.writeByte -/

@[simp] theorem State.writeByte_cfg (a : Nat) (b : Byte) : (s.writeByte a b).cfg = s.cfg := rfl
@[simp] theorem State.writeByte_mem (a : Nat) (b : Byte) :
    (s.writeByte a b).mem = memWrite s.cfg s.mem a b := rfl
@[simp] theorem State.writeByte_v (a : Nat) (b : Byte) : (s.writeByte a b).v = s.v := rfl
@[simp] theorem State.writeByte_i (a : Nat) (b : Byte) : (s.writeByte a b).i = s.i := rfl
@[simp] theorem State.writeByte_pc (a : Nat) (b : Byte) : (s.writeByte a b).pc = s.pc := rfl
@[simp] theorem State.writeByte_stack (a : Nat) (b : Byte) :
    (s.writeByte a b).stack = s.stack := rfl
@[simp] theorem State.writeByte_dt (a : Nat) (b : Byte) : (s.writeByte a b).dt = s.dt := rfl
@[simp] theorem State.writeByte_st (a : Nat) (b : Byte) : (s.writeByte a b).st = s.st := rfl
@[simp] theorem State.writeByte_disp (a : Nat) (b : Byte) : (s.writeByte a b).disp = s.disp := rfl
@[simp] theorem State.writeByte_dirty (a : Nat) (b : Byte) :
    (s.writeByte a b).dirty = s.dirty := rfl
@[simp] theorem State.writeByte_waiting (a : Nat) (b : Byte) :
    (s.writeByte a b).waiting = s.waiting := rfl
@[simp] theorem State.writeByte_status (a : Nat) (b : Byte) :
    (s.writeByte a b).status = s.status := rfl
@[simp] theorem State.writeByte_inputs (a : Nat) (b : Byte) :
    (s.writeByte a b).inputs = s.inputs := rfl
@[simp] theorem State.writeByte_stepNo (a : Nat) (b : Byte) :
    (s.writeByte a b).stepNo = s.stepNo := rfl
@[simp] theorem State.writeByte_frames (a : Nat) (b : Byte) :
    (s.writeByte a b).frames = s.frames := rfl

/-! ### State.setReg -/

@[simp] theorem State.setReg_cfg (x : RegIx) (b : Byte) : (s.setReg x b).cfg = s.cfg := rfl
@[simp] theorem State.setReg_mem (x : RegIx) (b : Byte) : (s.setReg x b).mem = s.mem := rfl
@[simp] theorem State.setReg_v (x : RegIx) (b : Byte) : (s.setReg x b).v = s.v.set x b := rfl
@[simp] theorem State.setReg_i (x : RegIx) (b : Byte) : (s.setReg x b).i = s.i := rfl
@[simp] theorem State.setReg_pc (x : RegIx) (b : Byte) : (s.setReg x b).pc = s.pc := rfl
@[simp] theorem State.setReg_stack (x : RegIx) (b : Byte) : (s.setReg x b).stack = s.stack := rfl
@[simp] theorem State.setReg_dt (x : RegIx) (b : Byte) : (s.setReg x b).dt = s.dt := rfl
@[simp] theorem State.setReg_st (x : RegIx) (b : Byte) : (s.setReg x b).st = s.st := rfl
@[simp] theorem State.setReg_disp (x : RegIx) (b : Byte) : (s.setReg x b).disp = s.disp := rfl
@[simp] theorem State.setReg_dirty (x : RegIx) (b : Byte) : (s.setReg x b).dirty = s.dirty := rfl
@[simp] theorem State.setReg_waiting (x : RegIx) (b : Byte) :
    (s.setReg x b).waiting = s.waiting := rfl
@[simp] theorem State.setReg_status (x : RegIx) (b : Byte) : (s.setReg x b).status = s.status := rfl
@[simp] theorem State.setReg_inputs (x : RegIx) (b : Byte) : (s.setReg x b).inputs = s.inputs := rfl
@[simp] theorem State.setReg_stepNo (x : RegIx) (b : Byte) : (s.setReg x b).stepNo = s.stepNo := rfl
@[simp] theorem State.setReg_frames (x : RegIx) (b : Byte) : (s.setReg x b).frames = s.frames := rfl

/-! ### State.setRegFlag -/

@[simp] theorem State.setRegFlag_cfg (x : RegIx) (r : Byte) (f : Bool) :
    (s.setRegFlag x r f).cfg = s.cfg := rfl
@[simp] theorem State.setRegFlag_mem (x : RegIx) (r : Byte) (f : Bool) :
    (s.setRegFlag x r f).mem = s.mem := rfl
@[simp] theorem State.setRegFlag_v (x : RegIx) (r : Byte) (f : Bool) :
    (s.setRegFlag x r f).v = (s.v.set x r).set regF (flagByte f) := rfl
@[simp] theorem State.setRegFlag_i (x : RegIx) (r : Byte) (f : Bool) :
    (s.setRegFlag x r f).i = s.i := rfl
@[simp] theorem State.setRegFlag_pc (x : RegIx) (r : Byte) (f : Bool) :
    (s.setRegFlag x r f).pc = s.pc := rfl
@[simp] theorem State.setRegFlag_stack (x : RegIx) (r : Byte) (f : Bool) :
    (s.setRegFlag x r f).stack = s.stack := rfl
@[simp] theorem State.setRegFlag_dt (x : RegIx) (r : Byte) (f : Bool) :
    (s.setRegFlag x r f).dt = s.dt := rfl
@[simp] theorem State.setRegFlag_st (x : RegIx) (r : Byte) (f : Bool) :
    (s.setRegFlag x r f).st = s.st := rfl
@[simp] theorem State.setRegFlag_disp (x : RegIx) (r : Byte) (f : Bool) :
    (s.setRegFlag x r f).disp = s.disp := rfl
@[simp] theorem State.setRegFlag_dirty (x : RegIx) (r : Byte) (f : Bool) :
    (s.setRegFlag x r f).dirty = s.dirty := rfl
@[simp] theorem State.setRegFlag_waiting (x : RegIx) (r : Byte) (f : Bool) :
    (s.setRegFlag x r f).waiting = s.waiting := rfl
@[simp] theorem State.setRegFlag_status (x : RegIx) (r : Byte) (f : Bool) :
    (s.setRegFlag x r f).status = s.status := rfl
@[simp] theorem State.setRegFlag_inputs (x : RegIx) (r : Byte) (f : Bool) :
    (s.setRegFlag x r f).inputs = s.inputs := rfl
@[simp] theorem State.setRegFlag_stepNo (x : RegIx) (r : Byte) (f : Bool) :
    (s.setRegFlag x r f).stepNo = s.stepNo := rfl
@[simp] theorem State.setRegFlag_frames (x : RegIx) (r : Byte) (f : Bool) :
    (s.setRegFlag x r f).frames = s.frames := rfl

/-! ### State.loadRegBlock -/

@[simp] theorem State.loadRegBlock_cfg (x : RegIx) (a : Nat) :
    (s.loadRegBlock x a).cfg = s.cfg := rfl
@[simp] theorem State.loadRegBlock_mem (x : RegIx) (a : Nat) :
    (s.loadRegBlock x a).mem = s.mem := rfl
@[simp] theorem State.loadRegBlock_v (x : RegIx) (a : Nat) :
    (s.loadRegBlock x a).v = s.v.mapFinIdx fun k b _ => if k ≤ x.val then s.readByte (a + k) else b := rfl
@[simp] theorem State.loadRegBlock_i (x : RegIx) (a : Nat) : (s.loadRegBlock x a).i = s.i := rfl
@[simp] theorem State.loadRegBlock_pc (x : RegIx) (a : Nat) : (s.loadRegBlock x a).pc = s.pc := rfl
@[simp] theorem State.loadRegBlock_stack (x : RegIx) (a : Nat) :
    (s.loadRegBlock x a).stack = s.stack := rfl
@[simp] theorem State.loadRegBlock_dt (x : RegIx) (a : Nat) : (s.loadRegBlock x a).dt = s.dt := rfl
@[simp] theorem State.loadRegBlock_st (x : RegIx) (a : Nat) : (s.loadRegBlock x a).st = s.st := rfl
@[simp] theorem State.loadRegBlock_disp (x : RegIx) (a : Nat) :
    (s.loadRegBlock x a).disp = s.disp := rfl
@[simp] theorem State.loadRegBlock_dirty (x : RegIx) (a : Nat) :
    (s.loadRegBlock x a).dirty = s.dirty := rfl
@[simp] theorem State.loadRegBlock_waiting (x : RegIx) (a : Nat) :
    (s.loadRegBlock x a).waiting = s.waiting := rfl
@[simp] theorem State.loadRegBlock_status (x : RegIx) (a : Nat) :
    (s.loadRegBlock x a).status = s.status := rfl
@[simp] theorem State.loadRegBlock_inputs (x : RegIx) (a : Nat) :
    (s.loadRegBlock x a).inputs = s.inputs := rfl
@[simp] theorem State.loadRegBlock_stepNo (x : RegIx) (a : Nat) :
    (s.loadRegBlock x a).stepNo = s.stepNo := rfl
@[simp] theorem State.loadRegBlock_frames (x : RegIx) (a : Nat) :
    (s.loadRegBlock x a).frames = s.frames := rfl

/-! ### State.goTo -/

@[simp] theorem State.goTo_cfg (a : Nat) : (s.goTo a).cfg = s.cfg := rfl
@[simp] theorem State.goTo_mem (a : Nat) : (s.goTo a).mem = s.mem := rfl
@[simp] theorem State.goTo_v (a : Nat) : (s.goTo a).v = s.v := rfl
@[simp] theorem State.goTo_i (a : Nat) : (s.goTo a).i = s.i := rfl
@[simp] theorem State.goTo_pc (a : Nat) : (s.goTo a).pc = a := rfl
@[simp] theorem State.goTo_stack (a : Nat) : (s.goTo a).stack = s.stack := rfl
@[simp] theorem State.goTo_dt (a : Nat) : (s.goTo a).dt = s.dt := rfl
@[simp] theorem State.goTo_st (a : Nat) : (s.goTo a).st = s.st := rfl
@[simp] theorem State.goTo_disp (a : Nat) : (s.goTo a).disp = s.disp := rfl
@[simp] theorem State.goTo_dirty (a : Nat) : (s.goTo a).dirty = s.dirty := rfl
@[simp] theorem State.goTo_waiting (a : Nat) : (s.goTo a).waiting = s.waiting := rfl
@[simp] theorem State.goTo_status (a : Nat) : (s.goTo a).status = s.status := rfl
@[simp] theorem State.goTo_inputs (a : Nat) : (s.goTo a).inputs = s.inputs := rfl
@[simp] theorem State.goTo_stepNo (a : Nat) : (s.goTo a).stepNo = s.stepNo := rfl
@[simp] theorem State.goTo_frames (a : Nat) : (s.goTo a).frames = s.frames := rfl

/-! ### State.push -/

@[simp] theorem State.push_cfg (a : Nat) : (s.push a).cfg = s.cfg := rfl
@[simp] theorem State.push_mem (a : Nat) : (s.push a).mem = s.mem := rfl
@[simp] theorem State.push_v (a : Nat) : (s.push a).v = s.v := rfl
@[simp] theorem State.push_i (a : Nat) : (s.push a).i = s.i := rfl
@[simp] theorem State.push_pc (a : Nat) : (s.push a).pc = s.pc := rfl
@[simp] theorem State.push_stack (a : Nat) : (s.push a).stack = s.stack ++ [a] := rfl
@[simp] theorem State.push_dt (a : Nat) : (s.push a).dt = s.dt := rfl
@[simp] theorem State.push_st (a : Nat) : (s.push a).st = s.st := rfl
@[simp] theorem State.push_disp (a : Nat) : (s.push a).disp = s.disp := rfl
@[simp] theorem State.push_dirty (a : Nat) : (s.push a).dirty = s.dirty := rfl
@[simp] theorem State.push_waiting (a : Nat) : (s.push a).waiting = s.waiting := rfl
@[simp] theorem State.push_status (a : Nat) : (s.push a).status = s.status := rfl
@[simp] theorem State.push_inputs (a : Nat) : (s.push a).inputs = s.inputs := rfl
@[simp] theorem State.push_stepNo (a : Nat) : (s.push a).stepNo = s.stepNo := rfl
@[simp] theorem State.push_frames (a : Nat) : (s.push a).frames = s.frames := rfl

/-! ### State.dropTop -/

@[simp] theorem State.dropTop_cfg : s.dropTop.cfg = s.cfg := rfl
@[simp] theorem State.dropTop_mem : s.dropTop.mem = s.mem := rfl
@[simp] theorem State.dropTop_v : s.dropTop.v = s.v := rfl
@[simp] theorem State.dropTop_i : s.dropTop.i = s.i := rfl
@[simp] theorem State.dropTop_pc : s.dropTop.pc = s.pc := rfl
@[simp] theorem State.dropTop_stack : s.dropTop.stack = s.stack.dropLast := rfl
@[simp] theorem State.dropTop_dt : s.dropTop.dt = s.dt := rfl
@[simp] theorem State.dropTop_st : s.dropTop.st = s.st := rfl
@[simp] theorem State.dropTop_disp : s.dropTop.disp = s.disp := rfl
@[simp] theorem State.dropTop_dirty : s.dropTop.dirty = s.dirty := rfl
@[simp] theorem State.dropTop_waiting : s.dropTop.waiting = s.waiting := rfl
@[simp] theorem State.dropTop_status : s.dropTop.status = s.status := rfl
@[simp] theorem State.dropTop_inputs : s.dropTop.inputs = s.inputs := rfl
@[simp] theorem State.dropTop_stepNo : s.dropTop.stepNo = s.stepNo := rfl
@[simp] theorem State.dropTop_frames : s.dropTop.frames = s.frames := rfl

/-! ### State.render -/

@[simp] theorem State.render_cfg : s.render.cfg = s.cfg := rfl
@[simp] theorem State.render_mem : s.render.mem = s.mem := rfl
@[simp] theorem State.render_v : s.render.v = s.v := rfl
@[simp] theorem State.render_i : s.render.i = s.i := rfl
@[simp] theorem State.render_pc : s.render.pc = s.pc := rfl
@[simp] theorem State.render_stack : s.render.stack = s.stack := rfl
@[simp] theorem State.render_dt : s.render.dt = s.dt := rfl
@[simp] theorem State.render_st : s.render.st = s.st := rfl
@[simp] theorem State.render_disp : s.render.disp = s.disp := rfl
@[simp] theorem State.render_dirty : s.render.dirty = false := rfl
@[simp] theorem State.render_waiting : s.render.waiting = s.waiting := rfl
@[simp] theorem State.render_status : s.render.status = s.status := rfl
@[simp] theorem State.render_inputs : s.render.inputs = s.inputs := rfl
@[simp] theorem State.render_stepNo : s.render.stepNo = s.stepNo := rfl
@[simp] theorem State.render_frames : s.render.frames = s.frames ++ [s.disp] := rfl

/-! ### State.timerTick -/

@[simp] theorem State.timerTick_cfg (due : Bool) : (s.timerTick due).cfg = s.cfg := rfl
@[simp] theorem State.timerTick_mem (due : Bool) : (s.timerTick due).mem = s.mem := rfl
@[simp] theorem State.timerTick_v (due : Bool) : (s.timerTick due).v = s.v := rfl
@[simp] theorem State.timerTick_i (due : Bool) : (s.timerTick due).i = s.i := rfl
@[simp] theorem State.timerTick_pc (due : Bool) : (s.timerTick due).pc = s.pc := rfl
@[simp] theorem State.timerTick_stack (due : Bool) : (s.timerTick due).stack = s.stack := rfl
@[simp] theorem State.timerTick_dt (due : Bool) : (s.timerTick due).dt = countDown due s.dt := rfl
@[simp] theorem State.timerTick_st (due : Bool) : (s.timerTick due).st = countDown due s.st := rfl
@[simp] theorem State.timerTick_disp (due : Bool) : (s.timerTick due).disp = s.disp := rfl
@[simp] theorem State.timerTick_dirty (due : Bool) :
    (s.timerTick due).dirty = (s.dirty && !s.tickRenders due) := rfl
@[simp] theorem State.timerTick_waiting (due : Bool) :
    (s.timerTick due).waiting = (s.waiting && !(due && countDown due s.dt == 0)) := rfl
@[simp] theorem State.timerTick_status (due : Bool) : (s.timerTick due).status = s.status := rfl
@[simp] theorem State.timerTick_inputs (due : Bool) : (s.timerTick due).inputs = s.inputs := rfl
@[simp] theorem State.timerTick_stepNo (due : Bool) : (s.timerTick due).stepNo = s.stepNo := rfl
@[simp] theorem State.timerTick_frames (due : Bool) :
    (s.timerTick due).frames = if s.tickRenders due then s.frames ++ [s.disp] else s.frames := rfl

/-! ### State.useInput -/

@[simp] theorem State.useInput_cfg : s.useInput.cfg = s.cfg := rfl
@[simp] theorem State.useInput_mem : s.useInput.mem = s.mem := rfl
@[simp] theorem State.useInput_v : s.useInput.v = s.v := rfl
@[simp] theorem State.useInput_i : s.useInput.i = s.i := rfl
@[simp] theorem State.useInput_pc : s.useInput.pc = s.pc := rfl
@[simp] theorem State.useInput_stack : s.useInput.stack = s.stack := rfl
@[simp] theorem State.useInput_dt : s.useInput.dt = s.dt := rfl
@[simp] theorem State.useInput_st : s.useInput.st = s.st := rfl
@[simp] theorem State.useInput_disp : s.useInput.disp = s.disp := rfl
@[simp] theorem State.useInput_dirty : s.useInput.dirty = s.dirty := rfl
@[simp] theorem State.useInput_waiting : s.useInput.waiting = s.waiting := rfl
@[simp] theorem State.useInput_status : s.useInput.status = s.status := rfl
@[simp] theorem State.useInput_inputs : s.useInput.inputs = s.inputs.tail := rfl
@[simp] theorem State.useInput_stepNo : s.useInput.stepNo = s.stepNo + 1 := rfl
@[simp] theorem State.useInput_frames : s.useInput.frames = s.frames := rfl

/-! ### State.fatalWith -/

@[simp] theorem State.fatalWith_cfg (k : FatalKind) : (s.fatalWith k).cfg = s.cfg := rfl
@[simp] theorem State.fatalWith_mem (k : FatalKind) : (s.fatalWith k).mem = s.mem := rfl
@[simp] theorem State.fatalWith_v (k : FatalKind) : (s.fatalWith k).v = s.v := rfl
@[simp] theorem State.fatalWith_i (k : FatalKind) : (s.fatalWith k).i = s.i := rfl
@[simp] theorem State.fatalWith_pc (k : FatalKind) : (s.fatalWith k).pc = s.pc := rfl
@[simp] theorem State.fatalWith_stack (k : FatalKind) : (s.fatalWith k).stack = s.stack := rfl
@[simp] theorem State.fatalWith_dt (k : FatalKind) : (s.fatalWith k).dt = s.dt := rfl
@[simp] theorem State.fatalWith_st (k : FatalKind) : (s.fatalWith k).st = s.st := rfl
@[simp] theorem State.fatalWith_disp (k : FatalKind) : (s.fatalWith k).disp = s.disp := rfl
@[simp] theorem State.fatalWith_dirty (k : FatalKind) : (s.fatalWith k).dirty = s.dirty := rfl
@[simp] theorem State.fatalWith_waiting (k : FatalKind) : (s.fatalWith k).waiting = s.waiting := rfl
@[simp] theorem State.fatalWith_status (k : FatalKind) : (s.fatalWith k).status = .fatal k := rfl
@[simp] theorem State.fatalWith_inputs (k : FatalKind) : (s.fatalWith k).inputs = s.inputs := rfl
@[simp] theorem State.fatalWith_stepNo (k : FatalKind) : (s.fatalWith k).stepNo = s.stepNo := rfl
@[simp] theorem State.fatalWith_frames (k : FatalKind) : (s.fatalWith k).frames = s.frames := rfl

/-! ### State.flush: a render when the display is dirty -/

@[simp] theorem State.flush_cfg : s.flush.cfg = s.cfg := by
  unfold State.flush; split <;> rfl
@[simp] theorem State.flush_mem : s.flush.mem = s.mem := by
  unfold State.flush; split <;> rfl
@[simp] theorem State.flush_v : s.flush.v = s.v := by
  unfold State.flush; split <;> rfl
@[simp] theorem State.flush_i : s.flush.i = s.i := by
  unfold State.flush; split <;> rfl
@[simp] theorem State.flush_pc : s.flush.pc = s.pc := by
  unfold State.flush; split <;> rfl
@[simp] theorem State.flush_stack : s.flush.stack = s.stack := by
  unfold State.flush; split <;> rfl
@[simp] theorem State.flush_dt : s.flush.dt = s.dt := by
  unfold State.flush; split <;> rfl
@[simp] theorem State.flush_st : s.flush.st = s.st := by
  unfold State.flush; split <;> rfl
@[simp] theorem State.flush_disp : s.flush.disp = s.disp := by
  unfold State.flush; split <;> rfl
@[simp] theorem State.flush_dirty : s.flush.dirty = false := by
  unfold State.flush; split <;> simp_all
@[simp] theorem State.flush_waiting : s.flush.waiting = s.waiting := by
  unfold State.flush; split <;> rfl
@[simp] theorem State.flush_status : s.flush.status = s.status := by
  unfold State.flush; split <;> rfl
@[simp] theorem State.flush_inputs : s.flush.inputs = s.inputs := by
  unfold State.flush; split <;> rfl
@[simp] theorem State.flush_stepNo : s.flush.stepNo = s.stepNo := by
  unfold State.flush; split <;> rfl
@[simp] theorem State.flush_frames : s.flush.frames = if s.dirty then s.frames ++ [s.disp] else s.frames := by
  unfold State.flush; split <;> rfl

/-! ### State.endStep: the tick, then the input used up -/

@[simp] theorem State.endStep_cfg : s.endStep.cfg = s.cfg := rfl
@[simp] theorem State.endStep_mem : s.endStep.mem = s.mem := rfl
@[simp] theorem State.endStep_v : s.endStep.v = s.v := rfl
@[simp] theorem State.endStep_i : s.endStep.i = s.i := rfl
@[simp] theorem State.endStep_pc : s.endStep.pc = s.pc := rfl
@[simp] theorem State.endStep_stack : s.endStep.stack = s.stack := rfl
@[simp] theorem State.endStep_dt : s.endStep.dt = countDown s.input.tick s.dt := rfl
@[simp] theorem State.endStep_st : s.endStep.st = countDown s.input.tick s.st := rfl
@[simp] theorem State.endStep_disp : s.endStep.disp = s.disp := rfl
@[simp] theorem State.endStep_dirty :
    s.endStep.dirty = (s.dirty && !s.tickRenders s.input.tick) := rfl
@[simp] theorem State.endStep_waiting :
    s.endStep.waiting = (s.waiting && !(s.input.tick && countDown s.input.tick s.dt == 0)) := rfl
@[simp] theorem State.endStep_status : s.endStep.status = s.status := rfl
@[simp] theorem State.endStep_inputs : s.endStep.inputs = s.inputs.tail := rfl
@[simp] theorem State.endStep_stepNo : s.endStep.stepNo = s.stepNo + 1 := rfl
@[simp] theorem State.endStep_frames :
    s.endStep.frames = if s.tickRenders s.input.tick then s.frames ++ [s.disp] else s.frames := rfl

end Sys2Proof.Machine
end

