-- ==== Sys2Proof/Laws/Memory.lean ====
section
/-! SUPPORT. Memory: a read after a write, the frame of a write, and that every operation keeps the
canonical form (20_memory.md R51, R61). -/

namespace Sys2Proof.Machine

variable {c : Config} {m : Memory} {lo : Nat}

theorem memWfFrom_cons {k : Nat} {b : Byte} : memWfFrom c lo ((k, b) :: m) = true ↔
    lo ≤ k ∧ k < c.memSize ∧ b ≠ resetByte c k ∧ memWfFrom c (k + 1) m = true := by
  simp [memWfFrom, and_assoc]

/-- The form above a bound is the form above any lower bound. -/
theorem memWfFrom_mono {hi : Nat} (h : memWfFrom c hi m = true) (hle : lo ≤ hi) :
    memWfFrom c lo m = true := by
  cases m with
  | nil => rfl
  | cons e rest =>
    obtain ⟨k, b⟩ := e
    rw [memWfFrom_cons] at h ⊢
    exact ⟨by omega, h.2⟩

/-- Below the bound nothing is listed. -/
theorem memRead_below {a : Nat} (h : memWfFrom c lo m = true) (ha : a < lo) :
    memRead c m a = resetByte c a := by
  induction m generalizing lo with
  | nil => rfl
  | cons e rest ih =>
    obtain ⟨k, b⟩ := e
    rw [memWfFrom_cons] at h
    rw [memRead, if_neg (by omega)]
    exact ih h.2.2.2 (by omega)

theorem memRead_memCons_ne {a a' : Nat} (b : Byte) (h : a ≠ a') :
    memRead c (memCons c a b m) a' = memRead c m a' := by
  unfold memCons; split
  · rfl
  · simp [memRead, h]

theorem memRead_memCons_same {a : Nat} (b : Byte) (h : memRead c m a = resetByte c a) :
    memRead c (memCons c a b m) a = b := by
  unfold memCons; split
  · simp_all
  · simp [memRead]

/-- A write leaves every other address alone, in any memory. -/
theorem memRead_memWrite_ne {a a' : Nat} (b : Byte) (h : a ≠ a') :
    memRead c (memWrite c m a b) a' = memRead c m a' := by
  induction m with
  | nil => exact memRead_memCons_ne b h
  | cons e rest ih =>
    obtain ⟨k, x⟩ := e
    unfold memWrite
    split
    · exact memRead_memCons_ne b h
    · split
      · subst_vars; rw [memRead_memCons_ne b h, memRead, if_neg h]
      · simp only [memRead, ih]

/-- A read after a write to the same address gives the byte written. -/
theorem memRead_memWrite_same {a : Nat} (b : Byte) (h : memWfFrom c lo m = true) :
    memRead c (memWrite c m a b) a = b := by
  induction m generalizing lo with
  | nil => exact memRead_memCons_same b rfl
  | cons e rest ih =>
    obtain ⟨k, x⟩ := e
    have hw := memWfFrom_cons.1 h
    unfold memWrite
    split
    · exact memRead_memCons_same b (memRead_below (lo := k) (memWfFrom_cons.2 ⟨le_rfl, hw.2⟩) ‹_›)
    · split
      · subst_vars; exact memRead_memCons_same b (memRead_below hw.2.2.2 (by omega))
      · rw [memRead, if_neg (by omega)]; exact ih hw.2.2.2

theorem memWfFrom_memCons {a : Nat} (b : Byte) (h : memWfFrom c (a + 1) m = true) (hlo : lo ≤ a)
    (ha : a < c.memSize) : memWfFrom c lo (memCons c a b m) = true := by
  unfold memCons; split
  · exact memWfFrom_mono h (by omega)
  · exact memWfFrom_cons.2 ⟨hlo, ha, ‹_›, h⟩

/-- A write keeps the canonical form. -/
theorem memWfFrom_memWrite {a : Nat} (b : Byte) (h : memWfFrom c lo m = true) (hlo : lo ≤ a)
    (ha : a < c.memSize) : memWfFrom c lo (memWrite c m a b) = true := by
  induction m generalizing lo with
  | nil => exact memWfFrom_memCons b rfl hlo ha
  | cons e rest ih =>
    obtain ⟨k, x⟩ := e
    have hw := memWfFrom_cons.1 h
    unfold memWrite
    split
    · exact memWfFrom_memCons b (memWfFrom_cons.2 ⟨by omega, hw.2⟩) hlo ha
    · split
      · subst_vars; exact memWfFrom_memCons b hw.2.2.2 hlo ha
      · exact memWfFrom_cons.2 ⟨hw.1, hw.2.1, hw.2.2.1, ih hw.2.2.2 (by omega)⟩

theorem memWf_memWrite {a : Nat} (b : Byte) (h : Memory.wf c m = true) (ha : a < c.memSize) :
    Memory.wf c (memWrite c m a b) = true := memWfFrom_memWrite b h (Nat.zero_le a) ha

/-! ### Bytes of the state -/

variable {s : State}

theorem State.readByte_congr {t : State} (hc : t.cfg = s.cfg) (hm : t.mem = s.mem) (a : Nat) :
    t.readByte a = s.readByte a := by simp [State.readByte, hc, hm]

@[simp] theorem State.readByte_goTo (a b : Nat) : (s.goTo a).readByte b = s.readByte b := rfl

theorem State.readByte_writeByte_ne {a a' : Nat} (b : Byte) (h : a ≠ a') :
    (s.writeByte a b).readByte a' = s.readByte a' := memRead_memWrite_ne b h

theorem State.readByte_writeByte_same (a : Nat) (b : Byte) (h : Memory.wf s.cfg s.mem = true) :
    (s.writeByte a b).readByte a = b := memRead_memWrite_same b h

/-- Writing bytes changes nothing but memory. -/
theorem State.writeBytes_eq (a : Nat) (bs : List Byte) :
    s.writeBytes a bs = { s with mem := (s.writeBytes a bs).mem } := by
  induction bs generalizing s a with
  | nil => rfl
  | cons b bs ih => simp only [State.writeBytes]; rw [ih]; rfl

@[simp] theorem State.writeBytes_cfg (a : Nat) (bs : List Byte) :
    (s.writeBytes a bs).cfg = s.cfg := by rw [State.writeBytes_eq]
@[simp] theorem State.writeBytes_v (a : Nat) (bs : List Byte) :
    (s.writeBytes a bs).v = s.v := by rw [State.writeBytes_eq]
@[simp] theorem State.writeBytes_i (a : Nat) (bs : List Byte) :
    (s.writeBytes a bs).i = s.i := by rw [State.writeBytes_eq]
@[simp] theorem State.writeBytes_pc (a : Nat) (bs : List Byte) :
    (s.writeBytes a bs).pc = s.pc := by rw [State.writeBytes_eq]
@[simp] theorem State.writeBytes_stack (a : Nat) (bs : List Byte) :
    (s.writeBytes a bs).stack = s.stack := by rw [State.writeBytes_eq]
@[simp] theorem State.writeBytes_dt (a : Nat) (bs : List Byte) :
    (s.writeBytes a bs).dt = s.dt := by rw [State.writeBytes_eq]
@[simp] theorem State.writeBytes_st (a : Nat) (bs : List Byte) :
    (s.writeBytes a bs).st = s.st := by rw [State.writeBytes_eq]
@[simp] theorem State.writeBytes_disp (a : Nat) (bs : List Byte) :
    (s.writeBytes a bs).disp = s.disp := by rw [State.writeBytes_eq]
@[simp] theorem State.writeBytes_dirty (a : Nat) (bs : List Byte) :
    (s.writeBytes a bs).dirty = s.dirty := by rw [State.writeBytes_eq]
@[simp] theorem State.writeBytes_waiting (a : Nat) (bs : List Byte) :
    (s.writeBytes a bs).waiting = s.waiting := by rw [State.writeBytes_eq]
@[simp] theorem State.writeBytes_status (a : Nat) (bs : List Byte) :
    (s.writeBytes a bs).status = s.status := by rw [State.writeBytes_eq]
@[simp] theorem State.writeBytes_inputs (a : Nat) (bs : List Byte) :
    (s.writeBytes a bs).inputs = s.inputs := by rw [State.writeBytes_eq]
@[simp] theorem State.writeBytes_stepNo (a : Nat) (bs : List Byte) :
    (s.writeBytes a bs).stepNo = s.stepNo := by rw [State.writeBytes_eq]
@[simp] theorem State.writeBytes_frames (a : Nat) (bs : List Byte) :
    (s.writeBytes a bs).frames = s.frames := by rw [State.writeBytes_eq]

/-- Writing bytes leaves every byte outside their range alone. -/
theorem State.readByte_writeBytes_outside {a a' : Nat} {bs : List Byte}
    (h : a' < a ∨ a + bs.length ≤ a') : (s.writeBytes a bs).readByte a' = s.readByte a' := by
  induction bs generalizing s a with
  | nil => rfl
  | cons b bs ih =>
    simp only [List.length_cons] at h
    rw [State.writeBytes, ih (by omega), State.readByte_writeByte_ne b (by omega)]

/-- Writing bytes below MEM_SIZE keeps the canonical form. -/
theorem State.memWf_writeBytes {a : Nat} {bs : List Byte} (h : Memory.wf s.cfg s.mem = true)
    (hb : bs = [] ∨ a + bs.length ≤ s.cfg.memSize) :
    Memory.wf s.cfg (s.writeBytes a bs).mem = true := by
  induction bs generalizing s a with
  | nil => exact h
  | cons b bs ih =>
    simp only [List.length_cons, reduceCtorEq, false_or] at hb
    exact ih (s := s.writeByte a b) (memWf_memWrite (c := s.cfg) b h (show a < s.cfg.memSize by omega))
      (.inr (show a + 1 + bs.length ≤ s.cfg.memSize by omega))

/-- After writing bytes below MEM_SIZE, each address of their range holds its byte. -/
theorem State.readByte_writeBytes_inside {a : Nat} {bs : List Byte} (h : Memory.wf s.cfg s.mem = true)
    (hb : a + bs.length ≤ s.cfg.memSize) {k : Nat} (hk : k < bs.length) :
    (s.writeBytes a bs).readByte (a + k) = bs[k] := by
  induction bs generalizing s a k with
  | nil => simp at hk
  | cons b bs ih =>
    simp only [List.length_cons] at hb hk
    have hw : Memory.wf (s.writeByte a b).cfg (s.writeByte a b).mem = true :=
      memWf_memWrite (c := s.cfg) b h (show a < s.cfg.memSize by omega)
    cases k with
    | zero =>
      rw [State.writeBytes, State.readByte_writeBytes_outside (by omega)]
      exact State.readByte_writeByte_same a b h
    | succ k =>
      have := ih (s := s.writeByte a b) (a := a + 1) hw
        (show a + 1 + bs.length ≤ s.cfg.memSize by omega) (by omega : k < bs.length)
      rw [State.writeBytes, List.getElem_cons_succ, ← this]
      congr 1; omega

@[simp] theorem State.length_readBytes (a n : Nat) : (s.readBytes a n).length = n := by
  induction n generalizing a with
  | zero => rfl
  | succ n ih => simp [State.readBytes, ih]

theorem State.getElem_readBytes (a n : Nat) {k : Nat} (hk : k < (s.readBytes a n).length) :
    (s.readBytes a n)[k] = s.readByte (a + k) := by
  induction n generalizing a k with
  | zero => simp [State.readBytes] at hk
  | succ n ih =>
    cases k with
    | zero => rfl
    | succ k =>
      simp only [State.readBytes, List.getElem_cons_succ]
      rw [ih]; congr 1; omega

/-- The bound check in one inequality: the range is empty or ends at most at MEM_SIZE. -/
theorem State.fits_iff (a n : Nat) : s.fits a n = true ↔ n = 0 ∨ a + n ≤ s.cfg.memSize := by
  simp only [State.fits, Bool.or_eq_true, decide_eq_true_eq]; omega

theorem State.fits_eq_false (a n : Nat) :
    s.fits a n = false ↔ n ≠ 0 ∧ s.cfg.memSize ≤ a + n - 1 := by simp [State.fits]

end Sys2Proof.Machine
end

