-- ==== Sys2Proof/Laws/Registers.lean ====
section
/-! SUPPORT. The register file, the operand forms and the exact value of each ALU result. -/

namespace Sys2Proof.Machine

variable {s : State}

theorem State.reg_setReg (x k : RegIx) (b : Byte) :
    (s.setReg x b).reg k = if x = k then b else s.reg k := by
  simp [State.setReg, State.reg, Vector.getElem_set, Fin.ext_iff]

@[simp] theorem State.reg_setReg_same (x : RegIx) (b : Byte) : (s.setReg x b).reg x = b := by
  rw [State.reg_setReg, if_pos rfl]

theorem State.reg_setReg_ne {x k : RegIx} (b : Byte) (h : k ≠ x) :
    (s.setReg x b).reg k = s.reg k := by rw [State.reg_setReg, if_neg (Ne.symm h)]

/-- The flag is written last, so VF holds it whatever x is (41_alu.md R130). -/
@[simp] theorem State.reg_setRegFlag_flag (x : RegIx) (r : Byte) (f : Bool) :
    (s.setRegFlag x r f).reg regF = flagByte f := State.reg_setReg_same _ _

theorem State.reg_setRegFlag_result {x : RegIx} (r : Byte) (f : Bool) (h : x ≠ regF) :
    (s.setRegFlag x r f).reg x = r := by
  rw [State.setRegFlag, State.reg_setReg_ne _ h, State.reg_setReg_same]

theorem State.reg_setRegFlag_ne {x k : RegIx} (r : Byte) (f : Bool) (hx : k ≠ x) (hf : k ≠ regF) :
    (s.setRegFlag x r f).reg k = s.reg k := by
  rw [State.setRegFlag, State.reg_setReg_ne _ hf, State.reg_setReg_ne _ hx]

/-- Reading a register depends on the register file alone. -/
theorem State.reg_congr {t : State} (h : t.v = s.v) (k : RegIx) : t.reg k = s.reg k := by
  simp [State.reg, h]

@[simp] theorem State.reg_goTo (a : Nat) (k : RegIx) : (s.goTo a).reg k = s.reg k := rfl

theorem State.reg_loadRegBlock (x k : RegIx) (a : Nat) :
    (s.loadRegBlock x a).reg k = if k ≤ x then s.readByte (a + k.val) else s.reg k := by
  simp [State.loadRegBlock, State.reg]

@[simp] theorem State.length_regBlock (x : RegIx) : (s.regBlock x).length = x.val + 1 := by
  simp [State.regBlock]

theorem State.getElem_regBlock {x k : RegIx} (h : k.val < (s.regBlock x).length) :
    (s.regBlock x)[k.val] = s.reg k := by
  simp [State.regBlock, State.reg]

/-! ### Exact values -/

@[simp] theorem toNat_flagByte (f : Bool) : (flagByte f).toNat = if f then 1 else 0 := by
  cases f <;> rfl

theorem flagByte_eq_one (f : Bool) : flagByte f = 1 ↔ f = true := by cases f <;> decide

@[simp] theorem toNat_addBytes (a b : Byte) : (addBytes a b).toNat = (a.toNat + b.toNat) % 256 := by
  simp [addBytes]

@[simp] theorem toNat_subBytes (a b : Byte) :
    (subBytes a b).toNat = (a.toNat + 256 - b.toNat) % 256 := by simp [subBytes]

@[simp] theorem toNat_shrByte (a : Byte) : (shrByte a).toNat = a.toNat / 2 := by
  have := a.isLt
  simp [shrByte]; omega

@[simp] theorem toNat_shlByte (a : Byte) : (shlByte a).toNat = a.toNat * 2 % 256 := by
  simp [shlByte]

theorem shrBitOut_eq (a : Byte) : shrBitOut a = decide (a.toNat % 2 = 1) := by
  simp [shrBitOut, BitVec.getLsbD, Nat.testBit_zero]

theorem shlBitOut_eq (a : Byte) : shlBitOut a = decide (a.toNat / 128 = 1) := by
  have := a.isLt
  simp only [shlBitOut, BitVec.getLsbD, Nat.testBit_eq_decide_div_mod_eq]
  congr 1; apply propext; omega

@[simp] theorem toNat_addIndex (i : Word) (b : Byte) :
    (addIndex i b).toNat = (i.toNat + b.toNat) % 65536 := by simp [addIndex]

@[simp] theorem toNat_glyphAddr (b : Byte) : (glyphAddr b).toNat = 5 * b.toNat := by
  have := b.isLt
  simp [glyphAddr]; omega

@[simp] theorem toNat_indexOf (nnn : Addr12) : (indexOf nnn).toNat = nnn.toNat := by
  have := nnn.isLt
  simp [indexOf]; omega

@[simp] theorem length_bcdDigits (q : Bool) (b : Byte) : (bcdDigits q b).length = 3 := rfl

/-- The three digits as numbers; none is reduced, with the quirk or without. -/
theorem toNat_bcdDigits (q : Bool) (b : Byte) : (bcdDigits q b).map BitVec.toNat =
    [b.toNat / 100, if q then b.toNat / 10 % 100 else b.toNat / 10 % 10, b.toNat % 10] := by
  have := b.isLt
  cases q <;> simp [bcdDigits] <;> omega

end Sys2Proof.Machine
end

