-- ==== Sys2Proof/Laws/Framebuffer.lean ====
section
/-! SUPPORT. Drawing: the cells of a sprite are distinct, so the draw XORs each cell once, and the
collision is the OR over the cells that were lit (43_display.md R181 to R183). -/

namespace Sys2Proof.Machine

@[simp] theorem pixel_blankDisplay (c : Fin 64) (r : Fin 32) : pixel blankDisplay c r = false := by
  simp [pixel, blankDisplay]

theorem pixel_togglePixel (d : Display) (c c' : Fin 64) (r r' : Fin 32) :
    pixel (togglePixel d c r) c' r' =
      (pixel d c' r' ^^ decide ((c, r) = (c', r'))) := by
  by_cases hc : c = c'
  · subst hc
    by_cases hr : r = r'
    · subst hr; simp [pixel, togglePixel]
    · simp [pixel, togglePixel, hr, Fin.val_inj]
  · simp [pixel, togglePixel, hc, Fin.val_inj]

/-- The display after toggling distinct cells: each listed cell is flipped, every other is as before. -/
theorem pixel_drawCells {cells : List (Fin 64 × Fin 32)} (h : cells.Nodup) (d : Display) (f : Bool)
    (c : Fin 64) (r : Fin 32) :
    pixel (drawCells cells d f).1 c r = (pixel d c r ^^ decide ((c, r) ∈ cells)) := by
  induction cells generalizing d f with
  | nil => simp [drawCells]
  | cons p rest ih =>
    obtain ⟨c0, r0⟩ := p
    rw [List.nodup_cons] at h
    rw [drawCells, ih h.2, pixel_togglePixel]
    by_cases he : (c0, r0) = (c, r)
    · cases he; simp [h.1]
    · simp [he, Ne.symm he]

/-- The collision of toggling distinct cells: one of them was lit before. -/
theorem collision_drawCells {cells : List (Fin 64 × Fin 32)} (h : cells.Nodup) (d : Display)
    (f : Bool) : (drawCells cells d f).2 = true ↔
      f = true ∨ ∃ c r, (c, r) ∈ cells ∧ pixel d c r = true := by
  induction cells generalizing d f with
  | nil => simp [drawCells]
  | cons p rest ih =>
    obtain ⟨c0, r0⟩ := p
    rw [List.nodup_cons] at h
    rw [drawCells, ih h.2, Bool.or_eq_true]
    constructor
    · rintro ((hf | hp) | ⟨c, r, hm, hp⟩)
      · exact .inl hf
      · exact .inr ⟨c0, r0, by simp, hp⟩
      · rw [pixel_togglePixel] at hp
        have hne : (c0, r0) ≠ (c, r) := fun he => h.1 (he ▸ hm)
        exact .inr ⟨c, r, by simp [hm], by simpa [hne] using hp⟩
    · rintro (hf | ⟨c, r, hm, hp⟩)
      · exact .inl (.inl hf)
      · rcases List.mem_cons.1 hm with he | hm
        · cases he; exact .inl (.inr hp)
        · have hne : (c0, r0) ≠ (c, r) := fun he => h.1 (he ▸ hm)
          exact .inr ⟨c, r, hm, by rw [pixel_togglePixel]; simpa [hne] using hp⟩

theorem mem_spriteRowCells {b : Byte} {x0 : Nat} {r0 : Fin 32} {c : Fin 64} {r : Fin 32} :
    (c, r) ∈ spriteRowCells b x0 r0 ↔
      r = r0 ∧ ∃ k, k < 8 ∧ b.getLsbD (7 - k) = true ∧ c.val = (x0 + k) % 64 := by
  simp only [spriteRowCells, List.mem_map, List.mem_filter, List.mem_range, Prod.mk.injEq,
    Fin.ext_iff, Fin.val_ofNat]
  constructor
  · rintro ⟨k, ⟨hk, hb⟩, hc, hr⟩; exact ⟨hr.symm, k, hk, hb, hc.symm⟩
  · rintro ⟨hr, k, hk, hb, hc⟩; exact ⟨k, ⟨hk, hb⟩, hc.symm, hr.symm⟩

/-- The cells of a sprite: a one bit of its bytes, wrapped around the grid (R181). -/
theorem mem_spriteCells {bytes : List Byte} {x0 y0 : Nat} {c : Fin 64} {r : Fin 32} :
    (c, r) ∈ spriteCells bytes x0 y0 ↔
      ∃ row, ∃ h : row < bytes.length, r.val = (y0 + row) % 32 ∧
        ∃ k, k < 8 ∧ bytes[row].getLsbD (7 - k) = true ∧ c.val = (x0 + k) % 64 := by
  induction bytes generalizing y0 with
  | nil => simp [spriteCells]
  | cons b rest ih =>
    rw [spriteCells, List.mem_append, mem_spriteRowCells, ih, Fin.ext_iff, Fin.val_ofNat]
    constructor
    · rintro (⟨hr, hk⟩ | ⟨row, h, hr, hk⟩)
      · exact ⟨0, by simp, by simpa using hr, by simpa using hk⟩
      · exact ⟨row + 1, by simpa using h, by rw [hr]; congr 1; omega, by simpa using hk⟩
    · rintro ⟨row, h, hr, hk⟩
      cases row with
      | zero => exact .inl ⟨by simpa using hr, by simpa using hk⟩
      | succ row =>
        exact .inr ⟨row, by simpa using h, by rw [hr]; congr 1; omega, by simpa using hk⟩

theorem nodup_spriteRowCells (b : Byte) (x0 : Nat) (r : Fin 32) : (spriteRowCells b x0 r).Nodup := by
  refine List.Nodup.map_on ?_ (List.nodup_range.filter _)
  intro i hi j hj he
  simp only [List.mem_filter, List.mem_range, Prod.mk.injEq, Fin.ext_iff, Fin.val_ofNat] at hi hj he
  omega

/-- No cell is toggled twice within one draw (43_display.md R183). -/
theorem nodup_spriteCells {bytes : List Byte} (h : bytes.length ≤ 32) (x0 y0 : Nat) :
    (spriteCells bytes x0 y0).Nodup := by
  induction bytes generalizing y0 with
  | nil => simp [spriteCells]
  | cons b rest ih =>
    simp only [List.length_cons] at h
    rw [spriteCells, List.nodup_append]
    refine ⟨nodup_spriteRowCells .., ih (by omega) _, ?_⟩
    rintro ⟨c, r⟩ ha ⟨c', r'⟩ hb he
    cases he
    obtain ⟨hr, -⟩ := mem_spriteRowCells.1 ha
    obtain ⟨row, hrow, hr', -⟩ := mem_spriteCells.1 hb
    rw [hr, Fin.val_ofNat] at hr'
    omega

/-- Cell lies k cells after the start, around the edge, when it is the start plus k. -/
theorem wrapDistance_eq {size start cell k : Nat} (hs : size = 64 ∨ size = 32) (hc : cell < size)
    (hk : k < size) : wrapDistance size start cell = k ↔ cell = (start % size + k) % size := by
  unfold wrapDistance
  rcases hs with rfl | rfl <;> omega

theorem spriteOn_iff {s : State} {x y : RegIx} {n : Nibble} {c : Fin 64} {r : Fin 32} :
    spriteOn s x y n c r = true ↔
      ∃ dx dy, wrapDistance 64 (s.reg x).toNat c.val = dx ∧
        wrapDistance 32 (s.reg y).toNat r.val = dy ∧ dx < 8 ∧ dy < n.toNat ∧
        (s.readByte (s.indexAddr + dy)).getLsbD (7 - dx) = true := by
  simp [spriteOn, and_assoc]

/-- A draw toggles exactly the cells on which the sprite has a one bit, wherever it starts. -/
theorem mem_spriteCells_iff_spriteOn {s : State} {x y : RegIx} {n : Nibble} {c : Fin 64} {r : Fin 32} :
    (c, r) ∈ spriteCells (s.readBytes s.indexAddr n.toNat) (drawColumn (s.reg x))
      (drawRow (s.reg y)) ↔ spriteOn s x y n c r = true := by
  have hn := n.isLt
  rw [mem_spriteCells, spriteOn_iff]
  simp only [drawColumn, drawRow, State.getElem_readBytes, State.length_readBytes]
  constructor
  · rintro ⟨row, hrow, hy, k, hk, hb, hx⟩
    exact ⟨k, row, (wrapDistance_eq (.inl rfl) c.isLt (by omega)).2 hx,
      (wrapDistance_eq (.inr rfl) r.isLt (by omega)).2 hy, hk, hrow, hb⟩
  · rintro ⟨dx, dy, hx, hy, hdx, hdy, hb⟩
    exact ⟨dy, hdy, (wrapDistance_eq (.inr rfl) r.isLt (by omega)).1 hy, dx, hdx, hb,
      (wrapDistance_eq (.inl rfl) c.isLt (by omega)).1 hx⟩

end Sys2Proof.Machine
end

