-- ==== Sys2Proof/Laws/Ops.lean ====
section
/-! SUPPORT. What each shared operation can do, said once: the ends of an instruction, the fatal
condition, the stack, the fetch, the tick, the end of a step. -/

namespace Sys2Proof.Machine

variable {s t : State}

theorem complete_next : complete s = .next t ↔ t = s.goTo (s.pc + 2) := by
  simp [complete, eq_comm]

theorem completeAt_next {a : Nat} : completeAt a s = .next t ↔ t = s.goTo a := by
  simp [completeAt, eq_comm]

theorem completeSkip_next {b : Bool} : completeSkip b s = .next t ↔
    t = s.goTo (if b then s.pc + 4 else s.pc + 2) := by simp [completeSkip, eq_comm]

theorem raiseFatal_next {k : FatalKind} : raiseFatal k s = .next t ↔ t = s.fatalWith k := by
  simp [raiseFatal, State.fatalWith, eq_comm]

theorem raiseFatal_eq (k : FatalKind) : raiseFatal k s = .next (s.fatalWith k) := rfl

/-! ### The stack -/

theorem State.top_eq_none : s.top = none ↔ s.stack = [] := List.getLast?_eq_none_iff

theorem State.top_of_stack {rest : List Nat} {a : Nat} (h : s.stack = rest ++ [a]) :
    s.top = some a ∧ s.dropTop.stack = rest := by simp [State.top, h]

theorem State.stack_of_top {a : Nat} (h : s.top = some a) : s.stack = s.dropTop.stack ++ [a] := by
  obtain ⟨l, hl⟩ := List.getLast?_eq_some_iff.1 h
  simp [hl]

theorem State.stackFull_iff : s.stackFull = true ↔
    ∃ l, s.cfg.stackLimit = some l ∧ l ≤ s.stack.length := by
  unfold State.stackFull; split <;> simp_all

/-! ### Fetch -/

theorem State.fetch_eq_none : s.fetch = none ↔ s.cfg.memSize ≤ s.pc + 1 := by
  unfold State.fetch; split <;> simp <;> omega

theorem State.fetch_eq_some {w : Word} : s.fetch = some w ↔ s.pc + 1 < s.cfg.memSize ∧
    w = wordOfBytes (s.readByte s.pc) (s.readByte (s.pc + 1)) := by
  unfold State.fetch; split <;> simp_all [eq_comm]

/-- A placed word is the next word fetched. -/
theorem State.fetch_placeWord (w : Word) (hm : Memory.wf s.cfg s.mem = true)
    (hp : s.pc + 1 < s.cfg.memSize) : (s.placeWord w).fetch = some w := by
  rw [State.placeWord, if_pos hp, State.fetch_eq_some]
  have h0 := State.readByte_writeBytes_inside (s := s) (a := s.pc) (bs := [highByte w, lowByte w]) hm
    (show s.pc + 2 ≤ s.cfg.memSize from hp) (k := 0) (by simp)
  have h1 := State.readByte_writeBytes_inside (s := s) (a := s.pc) (bs := [highByte w, lowByte w]) hm
    (show s.pc + 2 ≤ s.cfg.memSize from hp) (k := 1) (by simp)
  simp only [State.readByte, State.writeBytes_cfg, State.writeBytes_pc] at h0 h1 ⊢
  exact ⟨hp, by rw [h1]; simp only [Nat.add_zero] at h0; rw [h0]; simp⟩

/-! ### The tick -/

@[simp] theorem countDown_false (b : Byte) : countDown false b = b := by simp [countDown]

theorem toNat_countDown (due : Bool) (b : Byte) :
    (countDown due b).toNat = b.toNat - (if due then 1 else 0) := by
  have := b.isLt
  unfold countDown
  split
  · rename_i h
    have : b.toNat ≠ 0 := fun h0 => h.1 (BitVec.eq_of_toNat_eq (by simpa using h0))
    simp only [h.2, if_true, BitVec.toNat_sub]
    simp; omega
  · rename_i h
    by_cases hb : b = 0
    · simp [hb]
    · have : due = false := Bool.eq_false_iff.2 fun hd => h ⟨hb, hd⟩
      simp [this]

/-- Without a tick the end of a step changes nothing. -/
@[simp] theorem State.timerTick_false : s.timerTick false = s := by
  simp [State.timerTick, State.tickRenders]

/-! ### The end of a step -/

theorem finishStep_next {r : Result} : finishStep r = .next t ↔
    (∃ u, r = .next u ∧ u.status = .running ∧ t = u.endStep) ∨
    (∃ k, r = .next t ∧ t.status = .fatal k) := by
  cases r with
  | next u => cases hu : u.status <;> simp [finishStep, hu, eq_comm] <;> grind
  | fault f => simp [finishStep]
  | refused f => simp [finishStep]

end Sys2Proof.Machine
end

