-- ==== Sys2Proof/Laws/Step.lean ====
section
/-! SUPPORT. What a step can do, said once; every claim about steps is derived from these. -/

namespace Sys2Proof.Machine

variable {s t : State}

/-- Every instruction answers a next state: no meaning stops the machine. -/
theorem exec_total (i : Instr) (s : State) : ∃ t, exec i s = .next t := by
  cases i
  case ret => simp only [exec, execRet]; split <;> exact ⟨_, rfl⟩
  case jp => simp only [exec, execJp]; split <;> exact ⟨_, rfl⟩
  case call => simp only [exec, execCall]; split <;> exact ⟨_, rfl⟩
  case drw => simp only [exec, execDrw]; split <;> exact ⟨_, rfl⟩
  case ldBVx => simp only [exec, execLdBVx]; split <;> exact ⟨_, rfl⟩
  case ldMemVx => simp only [exec, execLdMemVx]; split <;> exact ⟨_, rfl⟩
  case ldVxMem => simp only [exec, execLdVxMem]; split <;> exact ⟨_, rfl⟩
  all_goals exact ⟨_, rfl⟩

/-- A step of a waiting core is the end of a step and nothing else. -/
theorem step_waiting (hr : s.status = .running) (hw : s.waiting = true) :
    step s = .next s.endStep := by simp [step, runNext, hr, hw]

/-- A step of a Running core that does not wait fetches, decodes and executes. -/
theorem step_running (hr : s.status = .running) (hw : s.waiting = false) :
    step s = fetchDecodeExecute exec s := by simp [step, runNext, hr, hw]

theorem fetchDecodeExecute_instr {w : Word} {i : Instr} (hf : s.fetch = some w)
    (hd : decode w = .instr i) : fetchDecodeExecute exec s = finishStep (exec i s) := by
  simp [fetchDecodeExecute, hf, hd]

theorem State.nextInstr_eq_some {i : Instr} : s.nextInstr = some i ↔
    s.waiting = false ∧ ∃ w, s.fetch = some w ∧ decode w = .instr i := by
  unfold State.nextInstr
  cases hw : s.waiting <;> simp
  cases hf : s.fetch with
  | none => simp
  | some w => cases hd : decode w <;> simp [hd]

/-- The kinds of fatal condition the fetch-decode stage raises, and when (60_exceptions.md R227). -/
def State.fetchFatal (s : State) (k : FatalKind) : Prop :=
  (s.fetch = none ∧ k = .memoryOverflow) ∨
  (∃ w, s.fetch = some w ∧
    ((decode w = .null ∧ k = .nullInstruction) ∨
     (∃ u, decode w = .undefined u ∧ k = .undefinedOpcode)))

/-- What a step that answers a next state did: only waited; or raised a fatal condition at the fetch or
the decode; or executed an instruction, to completion or into a fatal condition. -/
theorem step_cases (h : step s = .next t) : s.status = .running ∧
    ((s.waiting = true ∧ t = s.endStep) ∨
     (s.waiting = false ∧ ∃ k, s.fetchFatal k ∧ t = s.fatalWith k) ∨
     (∃ i u, s.nextInstr = some i ∧ exec i s = .next u ∧
       ((u.status = .running ∧ t = u.endStep) ∨ (∃ k, u.status = .fatal k ∧ t = u)))) := by
  cases hr : s.status with
  | fatal k => simp [step, runNext, hr] at h
  | running =>
    refine ⟨rfl, ?_⟩
    cases hw : s.waiting with
    | true => rw [step_waiting hr hw] at h; cases h; exact .inl ⟨rfl, rfl⟩
    | false =>
      rw [step_running hr hw] at h
      cases hf : s.fetch with
      | none =>
        simp only [fetchDecodeExecute, hf] at h
        exact .inr (.inl ⟨rfl, _, .inl ⟨hf, rfl⟩, raiseFatal_next.1 h⟩)
      | some w =>
        cases hd : decode w with
        | null =>
          simp only [fetchDecodeExecute, hf, hd] at h
          exact .inr (.inl ⟨rfl, _, .inr ⟨w, hf, .inl ⟨hd, rfl⟩⟩, raiseFatal_next.1 h⟩)
        | undefined u =>
          simp only [fetchDecodeExecute, hf, hd] at h
          exact .inr (.inl ⟨rfl, _, .inr ⟨w, hf, .inr ⟨u, hd, rfl⟩⟩, raiseFatal_next.1 h⟩)
        | instr i =>
          rw [fetchDecodeExecute_instr hf hd] at h
          have hn : s.nextInstr = some i := State.nextInstr_eq_some.2 ⟨hw, w, hf, hd⟩
          obtain ⟨u, hu, hur, rfl⟩ | ⟨k, hu, huk⟩ := finishStep_next.1 h
          · exact .inr (.inr ⟨i, u, hn, hu, .inl ⟨hur, rfl⟩⟩)
          · exact .inr (.inr ⟨i, t, hn, hu, .inr ⟨k, huk, rfl⟩⟩)

end Sys2Proof.Machine
end

