-- ==== Sys2Proof/Laws/Exec.lean ====
section
/-! SUPPORT. The next state of each instruction, said once: one equation per constructor, two where the
instruction can raise a fatal condition, in the words of the shared operations. -/

namespace Sys2Proof.Machine

variable (s : State)

/-! ### Control flow -/

theorem exec_ret_empty (h : s.stack = []) : exec .ret s = .next (s.fatalWith .stackUnderflow) := by
  simp [exec, execRet, State.top_eq_none.2 h, raiseFatal_eq]

theorem exec_ret {rest : List Nat} {a : Nat} (h : s.stack = rest ++ [a]) :
    exec .ret s = .next ({ s with stack := rest }.goTo a) := by
  obtain ⟨ht, hr⟩ := State.top_of_stack h
  simp only [State.dropTop] at hr
  simp [exec, execRet, ht, completeAt, State.dropTop, hr]

theorem exec_sys (nnn : Addr12) : exec (.sys nnn) s = .next (s.goTo (s.pc + 2)) := rfl

theorem exec_jp_self {nnn : Addr12} (h : nnn.toNat = s.pc) :
    exec (.jp nnn) s = .next (s.fatalWith .selfJump) := by
  simp [exec, execJp, addrOf, h, raiseFatal_eq]

theorem exec_jp {nnn : Addr12} (h : nnn.toNat ≠ s.pc) :
    exec (.jp nnn) s = .next (s.goTo nnn.toNat) := by
  simp [exec, execJp, addrOf, h, completeAt]

theorem exec_call_full {nnn : Addr12} (h : s.stackFull = true) :
    exec (.call nnn) s = .next (s.fatalWith .stackOverflow) := by
  simp [exec, execCall, h, raiseFatal_eq]

theorem exec_call {nnn : Addr12} (h : s.stackFull = false) : exec (.call nnn) s =
    .next ((s.push (s.pc + 2)).goTo nnn.toNat) := by
  simp [exec, execCall, h, completeAt, addrOf]

theorem exec_seImm (x : RegIx) (nn : Byte) : exec (.seImm x nn) s =
    .next (s.goTo (if s.reg x == nn then s.pc + 4 else s.pc + 2)) := rfl

theorem exec_sneImm (x : RegIx) (nn : Byte) : exec (.sneImm x nn) s =
    .next (s.goTo (if s.reg x != nn then s.pc + 4 else s.pc + 2)) := rfl

theorem exec_seReg (x y : RegIx) : exec (.seReg x y) s =
    .next (s.goTo (if s.reg x == s.reg y then s.pc + 4 else s.pc + 2)) := rfl

theorem exec_sneReg (x y : RegIx) : exec (.sneReg x y) s =
    .next (s.goTo (if s.reg x != s.reg y then s.pc + 4 else s.pc + 2)) := rfl

theorem exec_jpV0 (nnn : Addr12) : exec (.jpV0 nnn) s =
    .next (s.goTo ((s.reg 0).toNat + nnn.toNat)) := rfl

/-! ### ALU -/

theorem exec_ldImm (x : RegIx) (nn : Byte) : exec (.ldImm x nn) s =
    .next ((s.setReg x nn).goTo (s.pc + 2)) := rfl

theorem exec_addImm (x : RegIx) (nn : Byte) : exec (.addImm x nn) s =
    .next ((s.setReg x (addBytes (s.reg x) nn)).goTo (s.pc + 2)) := rfl

theorem exec_ldReg (x y : RegIx) : exec (.ldReg x y) s =
    .next ((s.setReg x (s.reg y)).goTo (s.pc + 2)) := rfl

theorem exec_orReg (x y : RegIx) : exec (.orReg x y) s =
    .next ((s.setReg x (s.reg x ||| s.reg y)).goTo (s.pc + 2)) := rfl

theorem exec_andReg (x y : RegIx) : exec (.andReg x y) s =
    .next ((s.setReg x (s.reg x &&& s.reg y)).goTo (s.pc + 2)) := rfl

theorem exec_xorReg (x y : RegIx) : exec (.xorReg x y) s =
    .next ((s.setReg x (s.reg x ^^^ s.reg y)).goTo (s.pc + 2)) := rfl

theorem exec_addReg (x y : RegIx) : exec (.addReg x y) s =
    .next ((s.setRegFlag x (addBytes (s.reg x) (s.reg y)) (addCarry (s.reg x) (s.reg y))).goTo
      (s.pc + 2)) := rfl

theorem exec_subReg (x y : RegIx) : exec (.subReg x y) s =
    .next ((s.setRegFlag x (subBytes (s.reg x) (s.reg y)) (subFlag (s.reg x) (s.reg y))).goTo
      (s.pc + 2)) := rfl

theorem exec_subnReg (x y : RegIx) : exec (.subnReg x y) s =
    .next ((s.setRegFlag x (subBytes (s.reg y) (s.reg x)) (subFlag (s.reg y) (s.reg x))).goTo
      (s.pc + 2)) := rfl

theorem exec_shr (x : RegIx) : exec (.shr x) s =
    .next ((s.setRegFlag x (shrByte (s.reg x)) (shrBitOut (s.reg x))).goTo
      (s.pc + 2)) := rfl

theorem exec_shl (x : RegIx) : exec (.shl x) s =
    .next ((s.setRegFlag x (shlByte (s.reg x)) (shlBitOut (s.reg x))).goTo
      (s.pc + 2)) := rfl

theorem exec_rnd (x : RegIx) (nn : Byte) : exec (.rnd x nn) s =
    .next ((s.setReg x (s.input.rnd &&& nn)).goTo (s.pc + 2)) := rfl

/-! ### Index register and memory -/

theorem exec_ldI (nnn : Addr12) : exec (.ldI nnn) s =
    .next ({ s with i := indexOf nnn }.goTo (s.pc + 2)) := rfl

theorem exec_addIVx (x : RegIx) : exec (.addIVx x) s =
    .next ({ s with i := addIndex s.i (s.reg x) }.goTo (s.pc + 2)) := rfl

theorem exec_ldFVx (x : RegIx) : exec (.ldFVx x) s =
    .next ({ s with i := glyphAddr (s.reg x) }.goTo (s.pc + 2)) := rfl

theorem exec_ldBVx {x : RegIx} (h : s.fits s.indexAddr 3 = true) : exec (.ldBVx x) s =
    .next ((s.writeBytes s.indexAddr (bcdDigits s.cfg.bcdTensQuirk (s.reg x))).goTo
      (s.pc + 2)) := by simp [exec, execLdBVx, h, complete]

theorem exec_ldBVx_overflow {x : RegIx} (h : s.fits s.indexAddr 3 = false) :
    exec (.ldBVx x) s = .next (s.fatalWith .memoryOverflow) := by
  simp [exec, execLdBVx, h, raiseFatal_eq]

theorem exec_ldMemVx {x : RegIx} (h : s.fits s.indexAddr (x.val + 1) = true) :
    exec (.ldMemVx x) s =
      .next ((s.writeBytes s.indexAddr (s.regBlock x)).goTo (s.pc + 2)) := by
  simp [exec, execLdMemVx, h, complete]

theorem exec_ldMemVx_overflow {x : RegIx} (h : s.fits s.indexAddr (x.val + 1) = false) :
    exec (.ldMemVx x) s = .next (s.fatalWith .memoryOverflow) := by
  simp [exec, execLdMemVx, h, raiseFatal_eq]

theorem exec_ldVxMem {x : RegIx} (h : s.fits s.indexAddr (x.val + 1) = true) :
    exec (.ldVxMem x) s = .next ((s.loadRegBlock x s.indexAddr).goTo (s.pc + 2)) := by
  simp [exec, execLdVxMem, h, complete]

theorem exec_ldVxMem_overflow {x : RegIx} (h : s.fits s.indexAddr (x.val + 1) = false) :
    exec (.ldVxMem x) s = .next (s.fatalWith .memoryOverflow) := by
  simp [exec, execLdVxMem, h, raiseFatal_eq]

/-! ### Display -/

theorem exec_cls : exec .cls s = .next ({ s.flush with disp := blankDisplay }.goTo (s.pc + 2)) := by
  simp [exec, execCls, complete]

/-- What DRW draws in s: the display after, and the collision. -/
def State.drawn (x y : RegIx) (n : Nibble) : Display × Bool :=
  drawSprite (s.readBytes s.indexAddr n.toNat) (drawColumn (s.reg x)) (drawRow (s.reg y)) s.disp

theorem exec_drw {x y : RegIx} {n : Nibble} (h : s.fits s.indexAddr n.toNat = true) :
    exec (.drw x y n) s = .next ({ s.setReg regF (flagByte (s.drawn x y n).2) with
      disp := (s.drawn x y n).1, dirty := true }.goTo (s.pc + 2)) := by
  simp [exec, execDrw, h, complete, State.drawn]

theorem exec_drw_overflow {x y : RegIx} {n : Nibble} (h : s.fits s.indexAddr n.toNat = false) :
    exec (.drw x y n) s = .next (s.fatalWith .memoryOverflow) := by
  simp [exec, execDrw, h, raiseFatal_eq]

theorem nodup_drawn (x y : RegIx) (n : Nibble) :
    (spriteCells (s.readBytes s.indexAddr n.toNat) (drawColumn (s.reg x))
      (drawRow (s.reg y))).Nodup := by
  have := n.isLt
  exact nodup_spriteCells (by rw [State.length_readBytes]; omega) _ _

/-- The display after a draw: the sprite's cells flipped. -/
theorem pixel_drawn (x y : RegIx) (n : Nibble) (c : Fin 64) (r : Fin 32) :
    pixel (s.drawn x y n).1 c r = (pixel s.disp c r ^^ spriteOn s x y n c r) := by
  rw [State.drawn, drawSprite, pixel_drawCells (nodup_drawn s x y n)]
  congr 1
  rw [Bool.eq_iff_iff, decide_eq_true_eq, mem_spriteCells_iff_spriteOn]

/-- The collision of a draw: the sprite lies on a lit cell. -/
theorem collision_drawn (x y : RegIx) (n : Nibble) : (s.drawn x y n).2 = true ↔
    ∃ c r, spriteOn s x y n c r = true ∧ pixel s.disp c r = true := by
  rw [State.drawn, drawSprite, collision_drawCells (nodup_drawn s x y n)]
  simp only [Bool.false_eq_true, false_or, mem_spriteCells_iff_spriteOn]

/-! ### Timers and keys -/

theorem exec_ldVxDT (x : RegIx) : exec (.ldVxDT x) s =
    .next ((s.setReg x s.dt).goTo (s.pc + 2)) := rfl

theorem exec_ldDTVx (x : RegIx) : exec (.ldDTVx x) s =
    .next ({ s with
      dt := s.reg x
      waiting := if s.cfg.delayInstructionBlocks && s.reg x != 0 then true else s.waiting }.goTo
        (s.pc + 2)) := rfl

theorem exec_ldSTVx (x : RegIx) : exec (.ldSTVx x) s =
    .next ({ s with st := s.reg x }.goTo (s.pc + 2)) := rfl

theorem exec_skp (x : RegIx) : exec (.skp x) s = .next (s.goTo (s.pc + 2)) := rfl

theorem exec_sknp (x : RegIx) : exec (.sknp x) s = .next (s.goTo (s.pc + 2)) := rfl

theorem exec_ldVxK (x : RegIx) : exec (.ldVxK x) s =
    .next ((s.setReg x 0).goTo (s.pc + 2)) := rfl

/-! ### What every instruction does -/

variable {s}

/-- The kinds of fatal condition an instruction raises by its own check, and when (60_exceptions.md
R227). -/
def State.execFatal (s : State) : Instr → Option FatalKind
  | .ret => if s.stack = [] then some .stackUnderflow else none
  | .jp nnn => if nnn.toNat = s.pc then some .selfJump else none
  | .call _ => if s.stackFull then some .stackOverflow else none
  | .drw _ _ n => if s.fits s.indexAddr n.toNat then none else some .memoryOverflow
  | .ldBVx _ => if s.fits s.indexAddr 3 then none else some .memoryOverflow
  | .ldMemVx x | .ldVxMem x => if s.fits s.indexAddr (x.val + 1) then none else some .memoryOverflow
  | _ => none

/-- An instruction whose check fails raises its condition and does nothing else. -/
theorem exec_of_execFatal {i : Instr} {k : FatalKind} (h : s.execFatal i = some k) :
    exec i s = .next (s.fatalWith k) := by
  cases i <;> simp only [State.execFatal, reduceCtorEq] at h <;> split at h <;> cases h
  · exact exec_ret_empty s ‹_›
  · exact exec_jp_self s ‹_›
  · exact exec_call_full s ‹_›
  · exact exec_drw_overflow s (Bool.eq_false_iff.2 ‹_›)
  · exact exec_ldBVx_overflow s (Bool.eq_false_iff.2 ‹_›)
  · exact exec_ldMemVx_overflow s (Bool.eq_false_iff.2 ‹_›)
  · exact exec_ldVxMem_overflow s (Bool.eq_false_iff.2 ‹_›)

/-- An instruction whose check passes keeps the status, the parameters and the host's inputs. -/
theorem exec_keeps {i : Instr} {t : State} (h : s.execFatal i = none) (ht : exec i s = .next t) :
    t.status = s.status ∧ t.cfg = s.cfg ∧ t.inputs = s.inputs ∧ t.stepNo = s.stepNo := by
  cases i
  case ret =>
    simp only [State.execFatal, ite_eq_right_iff, reduceCtorEq, imp_false] at h
    rw [exec_ret s (List.dropLast_append_getLast h).symm] at ht; cases ht; simp
  case jp =>
    simp only [State.execFatal, ite_eq_right_iff, reduceCtorEq, imp_false] at h
    rw [exec_jp s h] at ht; cases ht; simp
  case call =>
    simp only [State.execFatal, ite_eq_right_iff, reduceCtorEq, imp_false] at h
    rw [exec_call s (Bool.eq_false_iff.2 h)] at ht; cases ht; simp
  case drw =>
    simp only [State.execFatal, ite_eq_left_iff, reduceCtorEq, imp_false, not_not] at h
    rw [exec_drw s h] at ht; cases ht; simp
  case ldBVx =>
    simp only [State.execFatal, ite_eq_left_iff, reduceCtorEq, imp_false, not_not] at h
    rw [exec_ldBVx s h] at ht; cases ht; simp
  case ldMemVx =>
    simp only [State.execFatal, ite_eq_left_iff, reduceCtorEq, imp_false, not_not] at h
    rw [exec_ldMemVx s h] at ht; cases ht; simp
  case ldVxMem =>
    simp only [State.execFatal, ite_eq_left_iff, reduceCtorEq, imp_false, not_not] at h
    rw [exec_ldVxMem s h] at ht; cases ht; simp
  case cls => rw [exec_cls] at ht; cases ht; simp
  all_goals cases ht; simp

/-- An instruction either raises its condition, leaving s with that status, or completes with the status
unchanged; which of the two its check decides. -/
theorem exec_next {i : Instr} {t : State} (ht : exec i s = .next t) :
    (∃ k, s.execFatal i = some k ∧ t = s.fatalWith k) ∨
    (s.execFatal i = none ∧ t.status = s.status) := by
  cases h : s.execFatal i with
  | some k => rw [exec_of_execFatal h] at ht; cases ht; exact .inl ⟨k, rfl, rfl⟩
  | none => exact .inr ⟨rfl, (exec_keeps h ht).1⟩

end Sys2Proof.Machine
end

