-- ==== Sys2Proof/Laws/PerInstr.lean ====
section
/-! SUPPORT. Per instruction: the encoding carries the fixed bits that spec/opcode_table.json gives the
instruction's row (30_encoding.md R71, R76). -/

namespace Sys2Proof.Laws

/-- The mask of an instruction's row in spec/opcode_table.json: its fixed bits. -/
def rowMask : Instr → Word
  | .cls | .ret => 0xFFFF#16
  | .sys _ | .jp _ | .call _ | .seImm _ _ | .sneImm _ _ | .seReg _ _ | .ldImm _ _ | .addImm _ _ |
    .sneReg _ _ | .ldI _ | .jpV0 _ | .rnd _ _ | .drw _ _ _ => 0xF000#16
  | .ldReg _ _ | .orReg _ _ | .andReg _ _ | .xorReg _ _ | .addReg _ _ | .subReg _ _ | .shr _ |
    .subnReg _ _ | .shl _ => 0xF00F#16
  | .skp _ | .sknp _ | .ldVxDT _ | .ldVxK _ | .ldDTVx _ | .ldSTVx _ | .addIVx _ | .ldFVx _ |
    .ldBVx _ | .ldMemVx _ | .ldVxMem _ => 0xF0FF#16

/-- The match of an instruction's row in spec/opcode_table.json: the values of its fixed bits. -/
def rowMatch : Instr → Word
  | .cls => 0x00E0#16
  | .ret => 0x00EE#16
  | .sys _ => 0x0000#16
  | .jp _ => 0x1000#16
  | .call _ => 0x2000#16
  | .seImm _ _ => 0x3000#16
  | .sneImm _ _ => 0x4000#16
  | .seReg _ _ => 0x5000#16
  | .ldImm _ _ => 0x6000#16
  | .addImm _ _ => 0x7000#16
  | .ldReg _ _ => 0x8000#16
  | .orReg _ _ => 0x8001#16
  | .andReg _ _ => 0x8002#16
  | .xorReg _ _ => 0x8003#16
  | .addReg _ _ => 0x8004#16
  | .subReg _ _ => 0x8005#16
  | .shr _ => 0x8006#16
  | .subnReg _ _ => 0x8007#16
  | .shl _ => 0x800E#16
  | .sneReg _ _ => 0x9000#16
  | .ldI _ => 0xA000#16
  | .jpV0 _ => 0xB000#16
  | .rnd _ _ => 0xC000#16
  | .drw _ _ _ => 0xD000#16
  | .skp _ => 0xE09E#16
  | .sknp _ => 0xE0A1#16
  | .ldVxDT _ => 0xF007#16
  | .ldVxK _ => 0xF00A#16
  | .ldDTVx _ => 0xF015#16
  | .ldSTVx _ => 0xF018#16
  | .addIVx _ => 0xF01E#16
  | .ldFVx _ => 0xF029#16
  | .ldBVx _ => 0xF033#16
  | .ldMemVx _ => 0xF055#16
  | .ldVxMem _ => 0xF065#16

theorem and_classMask (w : Word) : (w &&& 0xF000#16).toNat = w.toNat / 4096 * 4096 := by
  have := w.isLt
  have h : w &&& 0xF000#16 = (w >>> 12) <<< 12 := by ext b hb; interval_cases b <;> simp
  rw [h]; simp [BitVec.toNat_shiftLeft, Nat.shiftRight_eq_div_pow, Nat.shiftLeft_eq]; omega

theorem and_classNMask (w : Word) :
    (w &&& 0xF00F#16).toNat = w.toNat / 4096 * 4096 + w.toNat % 16 := by
  have := w.isLt
  have h : w &&& 0xF00F#16 = ((w >>> 12) <<< 12) + ((w <<< 12) >>> 12) := by
    rw [BitVec.add_eq_or_of_and_eq_zero] <;> ext b hb <;> interval_cases b <;> simp
  rw [h]; simp [BitVec.toNat_shiftLeft, Nat.shiftRight_eq_div_pow, Nat.shiftLeft_eq]; omega

theorem and_classNNMask (w : Word) :
    (w &&& 0xF0FF#16).toNat = w.toNat / 4096 * 4096 + w.toNat % 256 := by
  have := w.isLt
  have h : w &&& 0xF0FF#16 = ((w >>> 12) <<< 12) + ((w <<< 8) >>> 8) := by
    rw [BitVec.add_eq_or_of_and_eq_zero] <;> ext b hb <;> interval_cases b <;> simp
  rw [h]; simp [BitVec.toNat_shiftLeft, Nat.shiftRight_eq_div_pow, Nat.shiftLeft_eq]; omega

/-- A word of class c with any nnn has the class's fixed bits. -/
theorem wordNNN_fixed {c : Nat} (hc : c < 16) (nnn : Addr12) :
    wordNNN c nnn &&& 0xF000#16 = BitVec.ofNat 16 (c * 4096) := by
  have := nnn.isLt
  refine BitVec.eq_of_toNat_eq ?_
  rw [and_classMask, toNat_wordNNN hc]; simp; omega

/-- A word of class c with any x and nn has the class's fixed bits. -/
theorem wordXNN_fixed {c : Nat} (hc : c < 16) (x : RegIx) (nn : Byte) :
    wordXNN c x nn &&& 0xF000#16 = BitVec.ofNat 16 (c * 4096) := by
  have := nn.isLt; have := x.isLt
  refine BitVec.eq_of_toNat_eq ?_
  rw [and_classMask, toNat_wordXNN hc]; simp; omega

/-- A word of class c keyed on nn has the fixed bits of both. -/
theorem wordXNN_fixedNN {c : Nat} (hc : c < 16) (x : RegIx) (nn : Byte) :
    wordXNN c x nn &&& 0xF0FF#16 = BitVec.ofNat 16 (c * 4096 + nn.toNat) := by
  have := nn.isLt; have := x.isLt
  refine BitVec.eq_of_toNat_eq ?_
  rw [and_classNNMask, toNat_wordXNN hc]; simp; omega

/-- A word of class c with any x, y and n has the class's fixed bits. -/
theorem wordXYN_fixed {c : Nat} (hc : c < 16) (x y : RegIx) (n : Nibble) :
    wordXYN c x y n &&& 0xF000#16 = BitVec.ofNat 16 (c * 4096) := by
  have := n.isLt; have := x.isLt; have := y.isLt
  refine BitVec.eq_of_toNat_eq ?_
  rw [and_classMask, toNat_wordXYN hc]; simp; omega

/-- A word of class c keyed on n has the fixed bits of both. -/
theorem wordXYN_fixedN {c : Nat} (hc : c < 16) (x y : RegIx) (n : Nibble) :
    wordXYN c x y n &&& 0xF00F#16 = BitVec.ofNat 16 (c * 4096 + n.toNat) := by
  have := n.isLt; have := x.isLt; have := y.isLt
  refine BitVec.eq_of_toNat_eq ?_
  rw [and_classNMask, toNat_wordXYN hc]; simp; omega

/-- The word of i has the fixed bits of i's row. -/
def EncodingFixedBits.Statement (i : Instr) : Prop := encode i &&& rowMask i = rowMatch i

namespace EncodingFixedBits

theorem cls : Statement .cls := by unfold Statement; decide
theorem ret : Statement .ret := by unfold Statement; decide
theorem sys (nnn : Addr12) : Statement (.sys nnn) := wordNNN_fixed (by omega) nnn
theorem jp (nnn : Addr12) : Statement (.jp nnn) := wordNNN_fixed (by omega) nnn
theorem call (nnn : Addr12) : Statement (.call nnn) := wordNNN_fixed (by omega) nnn
theorem seImm (x : RegIx) (nn : Byte) : Statement (.seImm x nn) := wordXNN_fixed (by omega) x nn
theorem sneImm (x : RegIx) (nn : Byte) : Statement (.sneImm x nn) := wordXNN_fixed (by omega) x nn
theorem seReg (x y : RegIx) : Statement (.seReg x y) := wordXYN_fixed (by omega) x y _
theorem ldImm (x : RegIx) (nn : Byte) : Statement (.ldImm x nn) := wordXNN_fixed (by omega) x nn
theorem addImm (x : RegIx) (nn : Byte) : Statement (.addImm x nn) := wordXNN_fixed (by omega) x nn
theorem ldReg (x y : RegIx) : Statement (.ldReg x y) := wordXYN_fixedN (by omega) x y _
theorem orReg (x y : RegIx) : Statement (.orReg x y) := wordXYN_fixedN (by omega) x y _
theorem andReg (x y : RegIx) : Statement (.andReg x y) := wordXYN_fixedN (by omega) x y _
theorem xorReg (x y : RegIx) : Statement (.xorReg x y) := wordXYN_fixedN (by omega) x y _
theorem addReg (x y : RegIx) : Statement (.addReg x y) := wordXYN_fixedN (by omega) x y _
theorem subReg (x y : RegIx) : Statement (.subReg x y) := wordXYN_fixedN (by omega) x y _
theorem shr (x : RegIx) : Statement (.shr x) := wordXYN_fixedN (by omega) x _ _
theorem subnReg (x y : RegIx) : Statement (.subnReg x y) := wordXYN_fixedN (by omega) x y _
theorem shl (x : RegIx) : Statement (.shl x) := wordXYN_fixedN (by omega) x _ _
theorem sneReg (x y : RegIx) : Statement (.sneReg x y) := wordXYN_fixed (by omega) x y _
theorem ldI (nnn : Addr12) : Statement (.ldI nnn) := wordNNN_fixed (by omega) nnn
theorem jpV0 (nnn : Addr12) : Statement (.jpV0 nnn) := wordNNN_fixed (by omega) nnn
theorem rnd (x : RegIx) (nn : Byte) : Statement (.rnd x nn) := wordXNN_fixed (by omega) x nn
theorem drw (x y : RegIx) (n : Nibble) : Statement (.drw x y n) := wordXYN_fixed (by omega) x y n
theorem skp (x : RegIx) : Statement (.skp x) := wordXNN_fixedNN (by omega) x _
theorem sknp (x : RegIx) : Statement (.sknp x) := wordXNN_fixedNN (by omega) x _
theorem ldVxDT (x : RegIx) : Statement (.ldVxDT x) := wordXNN_fixedNN (by omega) x _
theorem ldVxK (x : RegIx) : Statement (.ldVxK x) := wordXNN_fixedNN (by omega) x _
theorem ldDTVx (x : RegIx) : Statement (.ldDTVx x) := wordXNN_fixedNN (by omega) x _
theorem ldSTVx (x : RegIx) : Statement (.ldSTVx x) := wordXNN_fixedNN (by omega) x _
theorem addIVx (x : RegIx) : Statement (.addIVx x) := wordXNN_fixedNN (by omega) x _
theorem ldFVx (x : RegIx) : Statement (.ldFVx x) := wordXNN_fixedNN (by omega) x _
theorem ldBVx (x : RegIx) : Statement (.ldBVx x) := wordXNN_fixedNN (by omega) x _
theorem ldMemVx (x : RegIx) : Statement (.ldMemVx x) := wordXNN_fixedNN (by omega) x _
theorem ldVxMem (x : RegIx) : Statement (.ldVxMem x) := wordXNN_fixedNN (by omega) x _

end EncodingFixedBits

end Sys2Proof.Laws
end

