-- ==== Sys2Proof/Tests/Slice0.lean ====
section
/-! SUPPORT. Small tests, each of one decode or one step, with expected results from the vectors of
95_test_vectors.md; and for each statement with hypotheses a witness that they can hold together. -/

namespace Sys2Proof.Tests

open Sys2Proof.Machine

/-! ### Helpers -/

/-- A core after reset whose next step has no tick and the random byte 0. -/
def quiet : State := { State.reset with inputs := [⟨false, 0⟩] }

/-- The same with a tick due. -/
def ticking : State := { State.reset with inputs := [⟨true, 0⟩] }

/-- s with registers set. -/
def setV (s : State) (l : List (RegIx × Byte)) : State := l.foldl (fun t p => t.setReg p.1 p.2) s

/-- s with the bytes bs from a on. -/
def setM (s : State) (a : Nat) (bs : List Byte) : State := s.writeBytes a bs

/-- s with I set. -/
def setI (s : State) (a : Word) : State := { s with i := a }

/-- s with the one cell (c, r) lit. -/
def lit (s : State) (c : Fin 64) (r : Fin 32) : State := { s with disp := togglePixel s.disp c r }

/-- The cells (c, r) of d that are lit. -/
def cells (d : Display) : List (Nat × Nat) :=
  (List.finRange 64).flatMap fun c =>
    ((List.finRange 32).filter fun r => pixel d c r).map fun r => (c.val, r.val)

/-- The result is a next state that passes a check. -/
def gives (r : Result) (p : State → Bool) : Bool :=
  match r with
  | .next t => p t
  | .fault _ => false
  | .refused _ => false

/-- The step of s on the word w, placed where the step fetches it. -/
def run (s : State) (w : Nat) : Result := step (s.withFetchWord 16 w)

/-- A step on w from s raises k and moves nothing a program can see. -/
def raises (s : State) (w : Nat) (k : FatalKind) : Bool :=
  gives (run s w) fun t => t.status == .fatal k && t.pc == s.pc && t.v == s.v && t.i == s.i &&
    t.stack == s.stack && t.dirty == s.dirty && t.dt == s.dt

/-- The next state of a result that has one. -/
def after (r : Result) (s : State) : State :=
  match r with
  | .next t => t
  | .fault _ => s
  | .refused _ => s

theorem next_after {r : Result} {p : State → Bool} (s : State) (h : gives r p = true) :
    r = .next (after r s) := by
  cases r <;> simp_all [gives, after]

/-! ### Well-formed terms (30_encoding.md R77) -/

theorem test_wellFormed_refuses_null : Instr.wellFormed (.sys 0x000) = false := by decide
theorem test_wellFormed_refuses_cls_as_sys : Instr.wellFormed (.sys 0x0E0) = false := by decide
theorem test_wellFormed_refuses_ret_as_sys : Instr.wellFormed (.sys 0x0EE) = false := by decide
theorem test_wellFormed_allows : Instr.wellFormed (.sys 0x0E1) = true ∧
    Instr.wellFormed (.jp 0x000) = true := by decide
theorem test_config_refuses : Config.wf { Config.default with memSize := 4095 } = false ∧
    Config.wf { Config.default with memSize := 65537 } = false ∧
    Config.wf { Config.default with stackLimit := some 0 } = false := by decide

/-! ### Decoding words written out from the patterns of R76 -/

theorem test_decode_control : decode 0x00EE#16 = .instr .ret ∧
    decode 0x00E1#16 = .instr (.sys 0x0E1) ∧ decode 0x1ABC#16 = .instr (.jp 0xABC) ∧
    decode 0x2F01#16 = .instr (.call 0xF01) ∧ decode 0x3A42#16 = .instr (.seImm 0xA 0x42) ∧
    decode 0x4B43#16 = .instr (.sneImm 0xB 0x43) ∧ decode 0x5121#16 = .instr (.seReg 1 2) ∧
    decode 0x934F#16 = .instr (.sneReg 3 4) ∧ decode 0xB300#16 = .instr (.jpV0 0x300) := by decide

theorem test_decode_alu : decode 0x6A2B#16 = .instr (.ldImm 0xA 0x2B) ∧
    decode 0x7103#16 = .instr (.addImm 1 0x03) ∧ decode 0x8120#16 = .instr (.ldReg 1 2) ∧
    decode 0x8231#16 = .instr (.orReg 2 3) ∧ decode 0x8342#16 = .instr (.andReg 3 4) ∧
    decode 0x8453#16 = .instr (.xorReg 4 5) ∧ decode 0x8564#16 = .instr (.addReg 5 6) ∧
    decode 0x81F5#16 = .instr (.subReg 1 15) ∧ decode 0x8A56#16 = .instr (.shr 0xA) ∧
    decode 0x8677#16 = .instr (.subnReg 6 7) ∧ decode 0x8B5E#16 = .instr (.shl 0xB) ∧
    decode 0xC30F#16 = .instr (.rnd 3 0x0F) := by decide

theorem test_decode_memory : decode 0xA22A#16 = .instr (.ldI 0x22A) ∧
    decode 0xF21E#16 = .instr (.addIVx 2) ∧ decode 0xF529#16 = .instr (.ldFVx 5) ∧
    decode 0xF133#16 = .instr (.ldBVx 1) ∧ decode 0xFF55#16 = .instr (.ldMemVx 15) ∧
    decode 0xF265#16 = .instr (.ldVxMem 2) := by decide

theorem test_decode_display : decode 0x00E0#16 = .instr .cls ∧
    decode 0xD7A3#16 = .instr (.drw 7 0xA 3) := by decide

theorem test_decode_timers : decode 0xE49E#16 = .instr (.skp 4) ∧
    decode 0xE5A1#16 = .instr (.sknp 5) ∧ decode 0xF307#16 = .instr (.ldVxDT 3) ∧
    decode 0xF40A#16 = .instr (.ldVxK 4) ∧ decode 0xF015#16 = .instr (.ldDTVx 0) ∧
    decode 0xF218#16 = .instr (.ldSTVx 2) := by decide

/-- The Undefined words of V1.1, and the null word. -/
theorem test_decode_rejects : decode 0x0000#16 = .null ∧ decode 0x8008#16 = .undefined 0x8008 ∧
    decode 0x800D#16 = .undefined 0x800D ∧ decode 0x800F#16 = .undefined 0x800F ∧
    decode 0xE000#16 = .undefined 0xE000 ∧ decode 0xE09F#16 = .undefined 0xE09F ∧
    decode 0xF000#16 = .undefined 0xF000 ∧ decode 0xF016#16 = .undefined 0xF016 ∧
    decode 0xF0FF#16 = .undefined 0xF0FF := by decide

/-- Bytes are read high byte first, two a word (W1). -/
theorem test_decodeBytes : decodeBytes [0x60, 0x0A, 0xA2] = .instr (.ldImm 0 0x0A) [0xA2] ∧
    decodeBytes [0x60] = .reject .truncated ∧ decodeBytes [0, 0] = .reject .nullWord := by decide

theorem test_decodeTableWord : decodeTableWord 16 0x00E0 = some .cls ∧
    decodeTableWord 16 0xD125 = some (.drw 1 2 5) ∧ decodeTableWord 16 0x8008 = none := by decide

/-! ### Reset (10_state.md R40; 70_reset_and_hazards.md R260) -/

/-- The first and last glyphs and the byte after the font. -/
theorem test_font : State.reset.readBytes 0 5 = [0xF0, 0x90, 0x90, 0x90, 0xF0] ∧
    State.reset.readBytes 75 6 = [0xF0, 0x80, 0xF0, 0x80, 0x80, 0x00] := by decide

/-- Glyph "5" starts at 25. -/
theorem test_font_five : State.reset.readBytes 25 5 = [0xF0, 0x80, 0xF0, 0x10, 0xF0] := by decide

/-! ### One step of each instruction (V1.2 to V1.6) -/

theorem test_ret : gives (run { quiet with pc := 0x400, stack := [0x202, 0x302] } 0x00EE) (fun t =>
    t.stack == [0x202] && t.pc == 0x302) = true := by decide
theorem test_ret_empty : raises quiet 0x00EE .stackUnderflow = true := by decide

theorem test_sys : gives (run quiet 0x0123) (fun t => t.pc == 0x202 && t.v == quiet.v) = true := by
  decide

theorem test_jp : gives (run quiet 0x1201) (fun t => t.pc == 0x201) = true := by decide
theorem test_jp_self : raises quiet 0x1200 .selfJump = true := by decide

theorem test_call : gives (run { quiet with pc := 0x300, stack := [0x202] } 0x2400) (fun t =>
    t.stack == [0x202, 0x302] && t.pc == 0x400) = true := by decide
theorem test_call_full : raises { quiet with
    cfg := { Config.default with stackLimit := some 1 }, pc := 0x300, stack := [0x202] }
    0x2400 .stackOverflow = true := by decide

theorem test_seImm : gives (run (setV quiet [(3, 0x42)]) 0x3342) (fun t => t.pc == 0x204) = true ∧
    gives (run (setV quiet [(3, 0x42)]) 0x3343) (fun t => t.pc == 0x202) = true := by decide
theorem test_sneImm : gives (run (setV quiet [(3, 0x42)]) 0x4342) (fun t => t.pc == 0x202) = true ∧
    gives (run (setV quiet [(3, 0x42)]) 0x4300) (fun t => t.pc == 0x204) = true := by decide
theorem test_seReg : gives (run (setV quiet [(1, 7), (2, 7)]) 0x5121) (fun t =>
      t.pc == 0x204) = true ∧
    gives (run (setV quiet [(1, 7), (2, 8)]) 0x5120) (fun t => t.pc == 0x202) = true := by decide
theorem test_sneReg : gives (run (setV quiet [(1, 7), (2, 8)]) 0x9120) (fun t =>
      t.pc == 0x204) = true ∧
    gives (run (setV quiet [(1, 7)]) 0x9110) (fun t => t.pc == 0x202) = true := by decide

theorem test_jpV0 : gives (run (setV quiet [(0, 0xFF)]) 0xBFFF) (fun t =>
    t.pc == 0x10FE) = true := by decide
theorem test_jpV0_self : gives (run quiet 0xB200) (fun t =>
    t.pc == 0x200 && t.status == .running) = true := by decide

theorem test_ldImm : gives (run quiet 0x6A2B) (fun t => t.reg 10 == 0x2B && t.pc == 0x202) = true := by
  decide
theorem test_addImm : gives (run (setV quiet [(1, 0xFE), (15, 0x77)]) 0x7103) (fun t =>
    t.reg 1 == 0x01 && t.reg 15 == 0x77) = true := by decide
theorem test_ldReg : gives (run (setV quiet [(2, 0x55)]) 0x8120) (fun t =>
    t.reg 1 == 0x55 && t.reg 2 == 0x55) = true := by decide
theorem test_orReg : gives (run (setV quiet [(15, 0x0F), (2, 0xF0)]) 0x8F21) (fun t =>
    t.reg 15 == 0xFF) = true := by decide
theorem test_andReg : gives (run (setV quiet [(1, 0x3C), (2, 0x0F), (15, 0x77)]) 0x8122) (fun t =>
    t.reg 1 == 0x0C && t.reg 15 == 0x77) = true := by decide
theorem test_xorReg : gives (run (setV quiet [(1, 0xFF), (2, 0x0F)]) 0x8123) (fun t =>
    t.reg 1 == 0xF0) = true := by decide

theorem test_addReg : gives (run (setV quiet [(1, 0xF0), (2, 0x20)]) 0x8124) (fun t =>
    t.reg 1 == 0x10 && t.reg 15 == 1) = true := by decide
theorem test_addReg_vf : gives (run (setV quiet [(15, 0xFF)]) 0x8FF4) (fun t =>
    t.reg 15 == 1) = true := by decide
theorem test_subReg : gives (run (setV quiet [(1, 0x03), (2, 0x05)]) 0x8125) (fun t =>
    t.reg 1 == 0xFE && t.reg 15 == 0) = true := by decide
theorem test_subReg_equal : gives (run (setV quiet [(1, 0x05), (2, 0x05), (15, 0x77)]) 0x8125)
    (fun t => t.reg 1 == 0 && t.reg 15 == 0) = true := by decide
theorem test_subnReg : gives (run (setV quiet [(1, 0x01), (2, 0x10)]) 0x8127) (fun t =>
    t.reg 1 == 0x0F && t.reg 15 == 1) = true := by decide
theorem test_shr : gives (run (setV quiet [(1, 0x05), (2, 0xFF)]) 0x8126) (fun t =>
    t.reg 1 == 0x02 && t.reg 15 == 1) = true := by decide
theorem test_shr_vf : gives (run (setV quiet [(15, 0x02)]) 0x8F06) (fun t =>
    t.reg 15 == 0) = true := by decide
theorem test_shl : gives (run (setV quiet [(1, 0x81)]) 0x812E) (fun t =>
    t.reg 1 == 0x02 && t.reg 15 == 1) = true := by decide
theorem test_rnd : gives (run { quiet with inputs := [⟨false, 0xA5⟩] } 0xC30F) (fun t =>
    t.reg 3 == 0x05 && t.inputs == []) = true := by decide

theorem test_ldI : gives (run quiet 0xA22A) (fun t => t.i == 0x022A) = true := by decide
theorem test_addIVx : gives (run (setI (setV quiet [(0, 1), (15, 0x77)]) 0xFFFF) 0xF01E) (fun t =>
    t.i == 0x0000 && t.reg 15 == 0x77) = true := by decide
theorem test_ldFVx : gives (run (setV quiet [(0, 0xFF)]) 0xF029) (fun t => t.i == 0x4FB) = true := by
  decide
theorem test_ldBVx : gives (run (setI (setV quiet [(1, 0x9C)]) 0x300) 0xF133) (fun t =>
    t.readBytes 0x300 3 == [1, 5, 6] && t.i == 0x300) = true := by decide
theorem test_ldBVx_quirk : gives (run (setI (setV { quiet with
    cfg := { Config.default with bcdTensQuirk := true } } [(1, 0xFF)]) 0x300) 0xF133) (fun t =>
    t.readBytes 0x300 3 == [0x02, 0x19, 0x05]) = true := by decide
theorem test_ldMemVx : gives (run (setI (setV quiet [(0, 1), (1, 2), (2, 3), (3, 4)]) 0x300) 0xF255)
    (fun t => t.readBytes 0x300 4 == [1, 2, 3, 0] && t.i == 0x300) = true := by decide
theorem test_ldMemVx_overflow : raises (setI quiet 0xFFF) 0xF155 .memoryOverflow = true := by decide
theorem test_ldVxMem : gives (run (setI (setV (setM quiet 0x300 [7, 8, 9, 10]) [(3, 0x77)]) 0x300)
    0xF265) (fun t => t.v.toList.take 4 == [7, 8, 9, 0x77] && t.i == 0x300) = true := by decide
theorem test_ldVxMem_overflow : raises (setI quiet 0xFF1) 0xFF65 .memoryOverflow = true := by decide

theorem test_cls : gives (run { lit quiet 3 4 with dirty := true } 0x00E0) (fun t =>
    !pixel t.disp 3 4 && !t.dirty && t.frames.map (fun d => pixel d 3 4) == [true]) = true := by
  decide +kernel
theorem test_drw_wraps_collides : gives (run (setI (setV (setM (lit quiet 1 0) 0x300 [0xFF])
    [(0, 60)]) 0x300) 0xD011) (fun t =>
      cells t.disp == [(0, 0), (2, 0), (3, 0), (60, 0), (61, 0), (62, 0), (63, 0)] &&
      t.reg 15 == 1 && t.dirty) = true := by decide +kernel
theorem test_drw_vertical : gives (run (setI (setV (setM quiet 0x300 [0x80, 0x80])
    [(1, 31), (15, 0x77)]) 0x300) 0xD012) (fun t =>
      cells t.disp == [(0, 0), (0, 31)] && t.reg 15 == 0) = true := by decide +kernel

theorem test_ldVxDT : gives (run { ticking with dt := 0x3C } 0xF307) (fun t =>
    t.reg 3 == 0x3C && t.dt == 0x3B) = true := by decide
theorem test_ldDTVx : gives (run (setV ticking [(0, 5)]) 0xF015) (fun t => t.dt == 4) = true := by
  decide
theorem test_ldDTVx_blocks : gives (run (setV { quiet with
    cfg := { Config.default with delayInstructionBlocks := true } } [(0, 2)]) 0xF015) (fun t =>
    t.dt == 2 && t.waiting && t.pc == 0x202) = true := by decide
theorem test_ldSTVx : gives (run (setV ticking [(0, 1)]) 0xF018) (fun t =>
    t.st == 0 && !t.tone) = true ∧
    gives (run (setV quiet [(2, 10)]) 0xF218) (fun t => t.st == 10 && t.tone) = true := by decide
theorem test_skp : gives (run (setV quiet [(0, 5)]) 0xE09E) (fun t => t.pc == 0x202) = true := by
  decide
theorem test_sknp : gives (run (setV quiet [(0, 5)]) 0xE0A1) (fun t => t.pc == 0x202) = true := by
  decide
theorem test_ldVxK : gives (run (setV quiet [(4, 0x33)]) 0xF40A) (fun t =>
    t.reg 4 == 0 && t.pc == 0x202) = true := by decide

/-! ### The step (V1.1, V1.6) -/

theorem test_undefined_word : raises quiet 0x8008 .undefinedOpcode = true := by decide
theorem test_null_word : raises quiet 0x0000 .nullInstruction = true := by decide
theorem test_fetch_edge : gives (step (setM { quiet with pc := 0xFFE } 0xFFE [0x60, 0x01])) (fun t =>
    t.reg 0 == 1 && t.pc == 0x1000) = true ∧
    gives (step { quiet with pc := 0xFFF }) (fun t => t.status == .fatal .memoryOverflow) = true := by
  decide
theorem test_odd_pc : gives (step (setM { quiet with pc := 0x301 } 0x301 [0x61, 0x23])) (fun t =>
    t.reg 1 == 0x23 && t.pc == 0x303) = true := by decide
theorem test_tick : gives (run { ticking with dt := 2, st := 7, dirty := true } 0x6000) (fun t =>
    t.dt == 1 && t.st == 6 && t.frames.length == 1 && !t.dirty) = true := by decide +kernel
theorem test_fatal_no_tick : gives (run { ticking with dt := 5 } 0x1200) (fun t =>
    t.dt == 5 && t.status == .fatal .selfJump) = true := by decide
theorem test_wait_ends : gives (step { ticking with waiting := true, dt := 1 }) (fun t =>
    !t.waiting && t.dt == 0 && t.pc == 0x200) = true ∧
    gives (step { ticking with waiting := true, dt := 2 }) (fun t =>
    t.waiting && t.dt == 1 && t.pc == 0x200) = true := by decide

/-! ### Witnesses: states and operands that meet the hypotheses of each statement

A theorem witness_<name> is for the statement of that name; where the statement has several clauses there
is a conjunct for each, at the edge of its range. -/

/-- A core with room for one return address, and one with delay_instruction_blocks. -/
def shallow : State := { quiet with cfg := { Config.default with stackLimit := some 1 } }
def blocking : State := { quiet with cfg := { Config.default with delayInstructionBlocks := true } }

/-- quiet with the word w where the next step fetches it. -/
def at0 (w : Nat) : State := quiet.withFetchWord 16 w

theorem witness_DecodeInvertsEncode : Instr.wellFormed (.sys 0x001) = true ∧
    Instr.wellFormed (.sys 0xFFF) = true ∧ Instr.wellFormed (.drw 15 15 15) = true := by decide

theorem witness_WordIsItsEncodingButIgnoredBits : decode 0x512F#16 = .instr (.seReg 1 2) ∧
    decode 0x912F#16 = .instr (.sneReg 1 2) ∧ decode 0x81F6#16 = .instr (.shr 1) ∧
    decode 0x81FE#16 = .instr (.shl 1) ∧ decode 0xDFFF#16 = .instr (.drw 15 15 15) := by decide

theorem witness_UndefinedWordsAreThoseListed : decode 0x8FFF#16 = .undefined 0x8FFF ∧
    (fieldC 0x8FFF#16 = 0x8 ∧ (fieldN 0x8FFF#16).toNat ∈ [0x8, 0x9, 0xA, 0xB, 0xC, 0xD, 0xF]) ∧
    (fieldC 0xEFFF#16 = 0xE ∧ (fieldNN 0xEFFF#16).toNat ∉ [0x9E, 0xA1]) ∧
    (fieldC 0xFFFF#16 = 0xF ∧ (fieldNN 0xFFFF#16).toNat ∉
      [0x07, 0x0A, 0x15, 0x18, 0x1E, 0x29, 0x33, 0x55, 0x65]) := by decide

theorem witness_StepRunsTheDecodedInstruction :
    ((at0 0x6A2B).status = .running ∧ (at0 0x6A2B).waiting = false ∧
      (at0 0x6A2B).pc + 1 < (at0 0x6A2B).cfg.memSize ∧
      (0x6A2B#16).toNat = ((at0 0x6A2B).readByte 0x200).toNat * 256 +
        ((at0 0x6A2B).readByte 0x201).toNat ∧ decode 0x6A2B#16 = .instr (.ldImm 0xA 0x2B)) ∧
    gives (exec (.ldImm 0xA 0x2B) (at0 0x6A2B)) (·.status == .running) = true ∧
    gives (exec .ret (at0 0x00EE)) (·.status == .fatal .stackUnderflow) = true := by decide

theorem witness_RunningCoreAlwaysSteps : State.reset.status = .running ∧
    { blocking with waiting := true }.status = .running := by decide

theorem witness_FatalCoreHasNoStep :
    (State.reset.fatalWith .selfJump).status = .fatal .selfJump := by decide

theorem witness_FatalStepChangesOnlyTheStatus :
    gives (step (at0 0x1200)) (·.status == .fatal .selfJump) = true ∧
    gives (step (at0 0x0000)) (·.status == .fatal .nullInstruction) = true := by decide

/-- One state for each kind and cause, with the step that raises it. -/
theorem witness_FatalConditionsHaveTheListedCauses :
    quiet.status = .running ∧ quiet.waiting = false ∧
    ({ quiet with pc := 0xFFF }.cfg.memSize ≤ { quiet with pc := 0xFFF }.pc + 1) ∧
    ((setI (at0 0xD002) 0xFFF).nextInstr = some (.drw 0 0 2) ∧ 0x1000 ≤ 0xFFF + 2 - 1) ∧
    ((setI (at0 0xF133) 0xFFE).nextInstr = some (.ldBVx 1) ∧ 0x1000 ≤ 0xFFE + 2) ∧
    ((setI (at0 0xF155) 0xFFF).nextInstr = some (.ldMemVx 1) ∧ 0x1000 ≤ 0xFFF + 1) ∧
    (setI (at0 0xF165) 0xFFF).nextInstr = some (.ldVxMem 1) ∧
    quiet.fetch = some 0x0000#16 ∧ (at0 0x8008).fetch = some 0x8008#16 ∧
    ((at0 0x00EE).nextInstr = some .ret ∧ (at0 0x00EE).stack = []) ∧
    (at0 0x1200).nextInstr = some (.jp 0x200) ∧
    ({ (shallow.withFetchWord 16 0x2300) with stack := [0x202] }.nextInstr = some (.call 0x300)) :=
  by decide

theorem test_fatal_causes :
    raises (setI quiet 0xFFF) 0xD002 .memoryOverflow = true ∧
    raises (setI quiet 0xFFE) 0xF133 .memoryOverflow = true ∧
    gives (step { quiet with pc := 0xFFF }) (· == { quiet with pc := 0xFFF }.fatalWith
      .memoryOverflow) = true := by decide +kernel

theorem witness_NullWordEndsTheRun : State.reset.status = .running ∧
    State.reset.waiting = false ∧ State.reset.pc + 1 < State.reset.cfg.memSize ∧
    State.reset.readByte State.reset.pc = 0 ∧ State.reset.readByte (State.reset.pc + 1) = 0 ∧
    ({ quiet with pc := 0xFFE }.pc + 1 < quiet.cfg.memSize ∧ quiet.readByte 0xFFE = 0 ∧
      quiet.readByte 0xFFF = 0) := by decide

theorem witness_WaitingStepOnlyTicks :
    ({ blocking with waiting := true, dt := 1 }.status = .running ∧
      { blocking with waiting := true, dt := 1 }.waiting = true) ∧
    { ticking with waiting := true, dt := 1 }.input.tick = true := by decide

/-- Both ways the step can come to its tick, and both values of the tick. -/
theorem witness_TickCountsTheTimersDown :
    ({ ticking with waiting := true }.status = .running ∧
      { ticking with waiting := true }.waiting = true) ∧
    ((at0 0x6000).status = .running ∧ (at0 0x6000).nextInstr = some (.ldImm 0 0) ∧
      gives (exec (.ldImm 0 0) (at0 0x6000)) (·.status == .running) = true) ∧
    (at0 0x6000).input.tick = false ∧ ticking.input.tick = true := by decide

/-- The state in which 6000 executes with a dirty display and a tick due. -/
def drawn : State := { ticking.withFetchWord 16 0x6000 with dirty := true }

theorem witness_TickRendersADirtyDisplay :
    (drawn.status = .running ∧ drawn.nextInstr = some (.ldImm 0 0) ∧
      gives (exec (.ldImm 0 0) drawn) (fun u => u.status == .running && u.dirty) = true ∧
      drawn.input.tick = true ∧ drawn.cfg.renderOnClearOnly = false) ∧
    ({ quiet with waiting := true }.status = .running ∧ { quiet with waiting := true }.waiting = true ∧
      { quiet with waiting := true }.input.tick = false) := by decide

/-- A step without a frame, one with the flush, one with the frame of the tick. -/
theorem witness_AtMostOneFramePerStep :
    gives (step (at0 0x6000)) (·.frames == []) = true ∧
    gives (step { at0 0x00E0 with dirty := true }) (·.frames.length == 1) = true ∧
    gives (step { ticking.withFetchWord 16 0xD000 with i := 0 }) (·.frames.length == 1) = true := by
  decide +kernel

theorem witness_ToneChangesOnlyAtLoadOrTick :
    gives (step (setV (at0 0xF018) [(0, 1)])) (·.tone != quiet.tone) = true ∧
    gives (step { ticking.withFetchWord 16 0x6000 with st := 1 }) (fun t => t.tone != true) = true ∧
    { ticking with st := 1 }.tone = true := by decide

/-- The state in which 6000 executes with DT and ST both 3 and a tick due. -/
def timed : State := { ticking.withFetchWord 16 0x6000 with dt := 3, st := 3 }

theorem witness_TimersFallByTheTicksOfARun :
    (∃ t, Steps (fun u => ∀ x, u.nextInstr ≠ some (.ldDTVx x)) timed [true] t ∧ t.dt = 2) ∧
    (∃ t, Steps (fun u => ∀ x, u.nextInstr ≠ some (.ldSTVx x)) timed [true] t ∧ t.st = 2) :=
  ⟨⟨_, .more timed _ _ [] (by decide)
      (next_after (p := fun t => t.status == .running) timed (by decide)) (by decide) (.done _),
      by decide⟩,
   ⟨_, .more timed _ _ [] (by decide)
      (next_after (p := fun t => t.status == .running) timed (by decide)) (by decide) (.done _),
      by decide⟩⟩

theorem witness_OnlyRndReadsTheHostInputs : (∀ x nn, Instr.cls ≠ .rnd x nn) ∧
    gives (exec .cls quiet) (fun t => t.pc == 0x202) = true := by
  refine ⟨fun x nn h => (by cases h), by decide⟩

/-- An instruction for each kind of state that changes it. -/
theorem witness_SpecialStateHasTheListedWriters :
    gives (exec (.ldI 0x22A) quiet) (fun t => t.i != quiet.i) = true ∧
    gives (exec (.call 0x300) quiet) (fun t => t.stack != quiet.stack) = true ∧
    gives (exec (.ldDTVx 0) (setV blocking [(0, 2)])) (fun t =>
      t.dt != blocking.dt && t.waiting != blocking.waiting) = true ∧
    gives (exec (.ldSTVx 0) (setV quiet [(0, 2)])) (fun t => t.st != quiet.st) = true ∧
    gives (exec (.drw 0 0 1) quiet) (fun t =>
      t.dirty != quiet.dirty && pixel t.disp 0 0 != pixel quiet.disp 0 0) = true ∧
    gives (exec .cls { quiet with dirty := true }) (fun t =>
      t.frames.length != quiet.frames.length) = true ∧
    gives (exec (.ldBVx 0) quiet) (fun t => t.mem != quiet.mem) = true := by decide +kernel

theorem witness_RegistersHaveTheListedWriters :
    gives (exec (.ldVxMem 2) quiet) (fun t => t.reg 2 != quiet.reg 2) = true ∧
    gives (exec (.addReg 0 1) (setV quiet [(0, 0xFF), (1, 1)])) (fun t =>
      t.reg 15 != quiet.reg 15) = true := by decide

theorem witness_RetPopsOrUnderflows : quiet.stack = [] ∧
    { quiet with stack := [0x202, 0x302] }.stack = [0x202] ++ [0x302] := by decide

theorem witness_SysOnlyAdvancesPc : fieldC 0x0001#16 = 0 ∧ 0x0001#16 ≠ 0x0000#16 ∧
    0x0001#16 ≠ 0x00E0#16 ∧ 0x0001#16 ≠ 0x00EE#16 ∧ fieldC 0x0FFF#16 = 0 := by decide

theorem witness_JpJumpsOrSelfJumps : fieldC 0x1FFF#16 = 0x1 ∧ (0x200 : Addr12).toNat = quiet.pc ∧
    (0x201 : Addr12).toNat ≠ quiet.pc ∧
    (0xFFF : Addr12).toNat = { quiet with pc := 0xFFF }.pc := by decide

/-- No limit, a limit with one place left, a limit reached. -/
theorem witness_CallPushesTheReturnAddress :
    (∀ l, quiet.cfg.stackLimit = some l → quiet.stack.length < l) ∧
    (∀ l, shallow.cfg.stackLimit = some l → shallow.stack.length < l) ∧
    (shallow.cfg.stackLimit = some 1 ∧ 1 ≤ { shallow with stack := [0x202] }.stack.length) := by
  refine ⟨fun l h => (by cases h), fun l h => (by cases h; decide), by decide⟩

theorem witness_RetResumesAfterTheCall : ∃ u, exec (.call 0x300) quiet = .next u ∧
    u.status = .running ∧ quiet.status = .running ∧ (setV u [(0, 1)]).stack = u.stack :=
  ⟨_, next_after (p := fun t => t.status == .running) quiet (by decide), by decide⟩

theorem witness_ImmediateSkips : fieldC 0x3342#16 = 0x3 ∧ fieldC 0x4342#16 = 0x4 ∧
    quiet.reg 3 = 0x00 ∧ quiet.reg 3 ≠ 0x42 := by decide

theorem witness_RegisterSkips : fieldC 0x512F#16 = 0x5 ∧ fieldC 0x912F#16 = 0x9 ∧
    quiet.reg 1 = quiet.reg 2 ∧ (setV quiet [(1, 7)]).reg 1 ≠ (setV quiet [(1, 7)]).reg 2 := by decide

theorem witness_LoadImmediate : fieldC 0x6A2B#16 = 0x6 := by decide

theorem witness_AddImmediateWraps : fieldC 0x71FF#16 = 0x7 := by decide

theorem witness_CopyRegister : fieldC 0x8120#16 = 0x8 ∧ fieldN 0x8120#16 = 0x0#4 := by decide

/-- Carry and no carry at the edge: 0xFF + 1 and 0x80 + 0x7F. -/
theorem witness_AddRegistersWithCarry : (1 : RegIx) ≠ 15 ∧
    255 < (0xFF#8).toNat + (0x01#8).toNat ∧ ¬ 255 < (0x80#8).toNat + (0x7F#8).toNat := by decide

theorem witness_SubtractRegistersWithFlag : (1 : RegIx) ≠ 15 ∧
    (0x04#8).toNat < (0x05#8).toNat ∧ ¬ (0x05#8).toNat < (0x05#8).toNat := by decide

theorem witness_ShiftsLeaveTheBitShiftedOut : fieldC 0x81F6#16 = 0x8 ∧ fieldN 0x81F6#16 = 0x6#4 ∧
    fieldC 0x81FE#16 = 0x8 ∧ fieldN 0x81FE#16 = 0xE#4 ∧ (1 : RegIx) ≠ 15 := by decide

theorem witness_RandomAnd : quiet.inputs = ⟨false, 0⟩ :: [] := by decide

theorem witness_LoadIndex : fieldC 0xAFFF#16 = 0xA := by decide

/-- The last address that fits, and the first that does not. -/
theorem witness_BcdStoresTheDigits : Memory.wf quiet.cfg quiet.mem = true ∧
    (setI quiet 0xFFD).i.toNat + 2 < quiet.cfg.memSize ∧
    quiet.cfg.memSize ≤ (setI quiet 0xFFE).i.toNat + 2 := by decide

theorem witness_DumpStoresTheRegisters : Memory.wf quiet.cfg quiet.mem = true ∧
    (setI quiet 0xFF0).i.toNat + (15 : RegIx).val < quiet.cfg.memSize ∧
    quiet.cfg.memSize ≤ (setI quiet 0xFF1).i.toNat + (15 : RegIx).val := by decide

theorem witness_LoadFillsTheRegisters :
    (setI quiet 0xFFF).i.toNat + (0 : RegIx).val < quiet.cfg.memSize ∧
    quiet.cfg.memSize ≤ (setI quiet 0xFFF).i.toNat + (1 : RegIx).val := by decide

theorem witness_DumpThenLoadRestoresTheRegisters : Memory.wf quiet.cfg quiet.mem = true ∧
    quiet.i.toNat + (3 : RegIx).val < quiet.cfg.memSize ∧
    ∃ u, exec (.ldMemVx 3) quiet = .next u ∧ (setV u [(0, 1)]).cfg = u.cfg ∧
      (setV u [(0, 1)]).mem = u.mem ∧ (setV u [(0, 1)]).i = u.i :=
  ⟨by decide, by decide, _, next_after (p := fun t => t.pc == 0x202) quiet (by decide), rfl, rfl, rfl⟩

theorem witness_StoredWordIsFetchedNext :
    Memory.wf (setI quiet 0x202).cfg (setI quiet 0x202).mem = true ∧
    (setI quiet 0x202).i.toNat + (1 : RegIx).val < quiet.cfg.memSize ∧
    (1 : RegIx).val = (0 : RegIx).val + 1 ∧ (1 : RegIx) ≤ 1 ∧
    (setI quiet 0x202).i.toNat + (0 : RegIx).val = quiet.pc + 2 := by decide

theorem witness_CanonicalMemoryIsUnique :
    let m := (setM (setM quiet 0x300 [1]) 0x200 [2]).mem
    let m' := (setM (setM quiet 0x200 [2]) 0x300 [1]).mem
    Memory.wf quiet.cfg m = true ∧ Memory.wf quiet.cfg m' = true ∧
      ∀ a, memRead quiet.cfg m a = memRead quiet.cfg m' a :=
  ⟨by decide, by decide, fun _ => rfl⟩

/-- No rows with I past memory, the last row that fits, the first that does not. -/
theorem witness_DrawXorsTheSprite : (0 : Nibble).toNat = 0 ∧
    (setI quiet 0xFFF).i.toNat + (1 : Nibble).toNat - 1 < quiet.cfg.memSize ∧
    0 < (2 : Nibble).toNat ∧
    quiet.cfg.memSize ≤ (setI quiet 0xFFF).i.toNat + (2 : Nibble).toNat - 1 := by decide

/-- A draw with a collision, and one without. -/
theorem witness_DrawCollisionFlag : quiet.i.toNat + (1 : Nibble).toNat - 1 < quiet.cfg.memSize ∧
    gives (exec (.drw 0 0 1) (lit quiet 0 0)) (fun t =>
      pixel (lit quiet 0 0).disp 0 0 && !pixel t.disp 0 0) = true ∧
    gives (exec (.drw 0 0 1) quiet) (fun t => t.reg 15 == 0) = true ∧
    ¬ (∃ c r, pixel quiet.disp c r = true) := by decide +kernel

theorem witness_DrawingTwiceRestoresTheDisplay : (0 : RegIx) ≠ 15 ∧ (1 : RegIx) ≠ 15 ∧
    quiet.i.toNat + (5 : Nibble).toNat - 1 < quiet.cfg.memSize ∧
    ∃ u t, exec (.drw 0 1 5) quiet = .next u ∧ exec (.drw 0 1 5) u = .next t :=
  ⟨by decide, by decide, by decide, _, _,
    next_after (p := fun t => t.pc == 0x202) quiet (by decide +kernel),
    next_after (p := fun t => t.pc == 0x204) quiet (by decide +kernel)⟩

theorem witness_ZeroSpriteDrawsNothing :
    (setI quiet 0x300).i.toNat + (2 : Nibble).toNat - 1 < quiet.cfg.memSize ∧
    ∀ k, k < (2 : Nibble).toNat → (setI quiet 0x300).readByte ((setI quiet 0x300).i.toNat + k) = 0 := by
  decide

theorem witness_ReadDelayTimer : fieldC 0xF307#16 = 0xF ∧ fieldNN 0xF307#16 = 0x07#8 ∧
    (at0 0xF307).status = .running ∧ (at0 0xF307).nextInstr = some (.ldVxDT 3) := by decide

theorem witness_SetTimers :
    (blocking.cfg.delayInstructionBlocks = true ∧ (setV blocking [(0, 1)]).reg 0 ≠ 0) ∧
    ¬ (blocking.cfg.delayInstructionBlocks = true ∧ blocking.reg 0 ≠ 0) ∧
    ¬ (quiet.cfg.delayInstructionBlocks = true ∧ (setV quiet [(0, 1)]).reg 0 ≠ 0) := by decide

theorem witness_KeyStubs : (fieldC 0xE49E#16 = 0xE ∧ fieldNN 0xE49E#16 = 0x9E#8) ∧
    (fieldC 0xE5A1#16 = 0xE ∧ fieldNN 0xE5A1#16 = 0xA1#8) ∧
    (fieldC 0xF40A#16 = 0xF ∧ fieldNN 0xF40A#16 = 0x0A#8) := by decide

theorem witness_ConstructionState : 79 < 80 ∧ 80 ≤ 80 ∧ State.reset.readByte 79 = 0x80 ∧
    State.reset.readByte 80 = 0 := by decide

/-- The longest image that fits, and one byte more (70_reset_and_hazards.md R263). -/
theorem witness_LoadProgramPlacesTheImage :
    (List.replicate 3584 (0 : Byte)).length + 0x200 ≤ Config.default.memSize ∧
    Config.default.memSize < (List.replicate 3585 (0 : Byte)).length + 0x200 := by
  rw [List.length_replicate, List.length_replicate]; decide

/-- The default parameters, and the ends of their ranges. -/
theorem witness_ConstructionMeetsTheInvariant : Config.default.wf = true ∧
    Config.wf { Config.default with memSize := 65536, stackLimit := some 1 } = true ∧
    ∃ t, State.reset.loadProgram [0x60, 0x0A] = some t := ⟨by decide, by decide, _, rfl⟩

theorem witness_StepKeepsTheInvariant : Inv State.reset ∧
    gives (step State.reset) (fun t => t.status == .fatal .nullInstruction) = true :=
  ⟨⟨by decide, by decide, by decide, by decide, by decide, by decide, by decide⟩, by decide⟩

theorem witness_ReachableStatesMeetTheInvariant :
    Reachable ((State.resetWith Config.default).writeBytes 0x200 [0x60, 0x0A]) :=
  .boot Config.default [0x60, 0x0A] _ (by decide) rfl

end Sys2Proof.Tests
end

/-! PROOFS. Control flow (40_control_flow.md): RET, SYS, JP and the skips on an immediate. First what
these proofs share with later ones: the decoder by class, and frames. -/

namespace Sys2Proof

variable {w : Word}

/-! ### The decoder by class (30_encoding.md R75, R77) -/

theorem decode_class0 (h : fieldC w = 0x0) : decode w = decodeClass0 w := by simp [decode, h]

/-- Class 0 is SYS but for the three words of R77. -/
theorem decodeClass0_sys (hnull : w ≠ 0x0000#16) (hcls : w ≠ 0x00E0#16) (hret : w ≠ 0x00EE#16) :
    decodeClass0 w = .instr (.sys (fieldNNN w)) := by
  rw [decodeClass0, if_neg hnull, if_neg hcls, if_neg hret]

theorem decode_class1 (h : fieldC w = 0x1) : decode w = .instr (.jp (fieldNNN w)) := by
  simp [decode, h]

theorem decode_class3 (h : fieldC w = 0x3) :
    decode w = .instr (.seImm (fieldX w) (fieldNN w)) := by simp [decode, h]

theorem decode_class4 (h : fieldC w = 0x4) :
    decode w = .instr (.sneImm (fieldX w) (fieldNN w)) := by simp [decode, h]

end Sys2Proof

namespace Sys2Proof.Machine

variable {s t : State} {written : List Part}

/-! ### Frames -/

theorem Frame.refl (written : List Part) (s : State) : Frame written s s := by simp [Frame]

/-- pc is no part of a frame, so moving it keeps every frame. -/
theorem Frame.goTo (h : Frame written s t) (a : Nat) : Frame written s (t.goTo a) := h

theorem frame_goTo (s : State) (a : Nat) : Frame [] s (s.goTo a) := (Frame.refl [] s).goTo a

/-- A new stack leaves every other part alone. -/
theorem frame_stack (s : State) (l : List Nat) : Frame [.stack] s { s with stack := l } := by
  simp [Frame, State.reg, State.readByte]

/-! ### Skips (40_control_flow.md R110) -/

/-- What an instruction does whose next state is a skip on b. -/
theorem exec_skip {i : Instr} {b : Bool}
    (h : exec i s = .next (s.goTo (if b then s.pc + 4 else s.pc + 2))) :
    ∃ t, exec i s = .next t ∧ Frame [] s t ∧
      (b = true → t.pc = s.pc + 4) ∧ (b = false → t.pc = s.pc + 2) :=
  ⟨_, h, frame_goTo s _, fun hb => by simp [hb], fun hb => by simp [hb]⟩

/-! ### The statements -/

/-- Settles O20: the stack is empty, or ends in the entry RET goes to. -/
theorem retPopsOrUnderflows : Obligations.RetPopsOrUnderflows := by
  unfold Obligations.RetPopsOrUnderflows
  refine ⟨by decide, fun s => ⟨exec_ret_empty s, fun rest a hstack => ?_⟩⟩
  exact ⟨_, exec_ret s hstack, rfl, rfl, (frame_stack s rest).goTo a⟩

/-- Settles O21: class 0 decodes to SYS off the three words of R77, and SYS only moves pc. -/
theorem sysOnlyAdvancesPc : Obligations.SysOnlyAdvancesPc := by
  unfold Obligations.SysOnlyAdvancesPc
  refine ⟨by decide, fun w hclass hnull hcls hret => ?_, fun nnn s => ?_⟩
  · rw [decode_class0 hclass, decodeClass0_sys hnull hcls hret]
  · exact ⟨_, exec_sys s nnn, rfl, frame_goTo s _⟩

/-- Settles O22: JP by whether its target is its own address. -/
theorem jpJumpsOrSelfJumps : Obligations.JpJumpsOrSelfJumps := by
  unfold Obligations.JpJumpsOrSelfJumps
  refine ⟨fun w => decode_class1, fun nnn s => ⟨exec_jp_self s, fun hne => ?_⟩⟩
  exact ⟨_, exec_jp s hne, rfl, frame_goTo s _⟩

/-- Settles O25: both are skips, SE on equality and SNE on its negation. -/
theorem immediateSkips : Obligations.ImmediateSkips := by
  unfold Obligations.ImmediateSkips
  refine ⟨fun w => decode_class3, fun w => decode_class4, fun x nn s => ⟨?_, ?_⟩⟩
  · simpa using exec_skip (exec_seImm s x nn)
  · simpa using exec_skip (exec_sneImm s x nn)

end Sys2Proof.Machine

/-! PROOFS. ALU (41_alu.md): the loads and the addition of an immediate, and the shifts. First what every
ALU proof shares: the decoder at classes 6, 7 and 8, and the two endings of an ALU instruction, a register
written and a register written with the flag after it. -/

namespace Sys2Proof

variable {w : Word}

/-! ### The decoder by class (30_encoding.md R75, R76) -/

theorem decode_class6 (h : fieldC w = 0x6) :
    decode w = .instr (.ldImm (fieldX w) (fieldNN w)) := by simp [decode, h]

theorem decode_class7 (h : fieldC w = 0x7) :
    decode w = .instr (.addImm (fieldX w) (fieldNN w)) := by simp [decode, h]

theorem decode_class8 (h : fieldC w = 0x8) : decode w = decodeClass8 w := by simp [decode, h]

theorem decodeClass8_ldReg (h : fieldN w = 0x0#4) :
    decodeClass8 w = .instr (.ldReg (fieldX w) (fieldY w)) := by simp [decodeClass8, h]

/-- y is ignored (30_encoding.md R79). -/
theorem decodeClass8_shr (h : fieldN w = 0x6#4) :
    decodeClass8 w = .instr (.shr (fieldX w)) := by simp [decodeClass8, h]

/-- y is ignored (30_encoding.md R79). -/
theorem decodeClass8_shl (h : fieldN w = 0xE#4) :
    decodeClass8 w = .instr (.shl (fieldX w)) := by simp [decodeClass8, h]

end Sys2Proof

namespace Sys2Proof.Machine

variable {s t : State} {i : Instr} {x : RegIx}

/-! ### The bit a shift puts out, as VF holds it (41_alu.md R141, R143) -/

theorem toNat_flagByte_shrBitOut (a : Byte) :
    (flagByte (shrBitOut a)).toNat = a.toNat % 2 := by
  rw [toNat_flagByte, shrBitOut_eq]
  rcases Nat.mod_two_eq_zero_or_one a.toNat with hbit | hbit <;> simp [hbit]

theorem toNat_flagByte_shlBitOut (a : Byte) :
    (flagByte (shlBitOut a)).toNat = a.toNat / 128 := by
  have hbit : a.toNat / 128 < 2 := Nat.div_lt_of_lt_mul a.isLt
  rw [toNat_flagByte, shlBitOut_eq]
  interval_cases a.toNat / 128 <;> rfl

/-! ### What a write to the register file leaves alone -/

theorem frame_setReg (s : State) (x : RegIx) (b : Byte) : Frame [.regs] s (s.setReg x b) := by
  simp [Frame, State.readByte]

theorem frame_setRegFlag (s : State) (x : RegIx) (r : Byte) (f : Bool) :
    Frame [.regs] s (s.setRegFlag x r f) := by
  simp [Frame, State.readByte]

theorem regsKept_setReg (s : State) (x : RegIx) (b : Byte) : RegsKept [x] s (s.setReg x b) :=
  fun _ hk => State.reg_setReg_ne b (List.ne_of_not_mem_cons hk)

theorem regsKept_setRegFlag (s : State) (x : RegIx) (r : Byte) (f : Bool) :
    RegsKept [x, regF] s (s.setRegFlag x r f) := fun _ hk =>
  State.reg_setRegFlag_ne r f (List.ne_of_not_mem_cons hk)
    (List.ne_of_not_mem_cons (List.not_mem_of_not_mem_cons hk))

/-- pc is no register, so moving it keeps them all. -/
theorem RegsKept.goTo {written : List RegIx} (h : RegsKept written s t) (a : Nat) :
    RegsKept written s (t.goTo a) := h

/-! ### The two endings of an ALU instruction (41_alu.md R130) -/

/-- What an instruction does whose next state is Vx written and pc moved on. -/
theorem exec_writesReg {b : Byte} (h : exec i s = .next ((s.setReg x b).goTo (s.pc + 2))) :
    ∃ t, exec i s = .next t ∧ t.reg x = b ∧ RegsKept [x] s t ∧ t.pc = s.pc + 2 ∧
      Frame [.regs] s t :=
  ⟨_, h, State.reg_setReg_same x b, (regsKept_setReg s x b).goTo _, rfl,
    (frame_setReg s x b).goTo _⟩

/-- What an instruction does whose next state is Vx written, then VF, and pc moved on. -/
theorem exec_writesRegFlag {r : Byte} {f : Bool}
    (h : exec i s = .next ((s.setRegFlag x r f).goTo (s.pc + 2))) :
    ∃ t, exec i s = .next t ∧ (x ≠ regF → t.reg x = r) ∧ t.reg regF = flagByte f ∧
      RegsKept [x, regF] s t ∧ t.pc = s.pc + 2 ∧ Frame [.regs] s t :=
  ⟨_, h, State.reg_setRegFlag_result r f, State.reg_setRegFlag_flag x r f,
    (regsKept_setRegFlag s x r f).goTo _, rfl, (frame_setRegFlag s x r f).goTo _⟩

/-! ### The statements -/

/-- Settles O28: class 6 is LD Vx, nn, which writes nn to Vx. -/
theorem loadImmediate : Obligations.LoadImmediate := by
  unfold Obligations.LoadImmediate
  exact ⟨fun w => decode_class6, fun x nn s => exec_writesReg (exec_ldImm s x nn)⟩

/-- Settles O29: class 7 is ADD Vx, nn, which writes the sum modulo 256 and no other register. -/
theorem addImmediateWraps : Obligations.AddImmediateWraps := by
  unfold Obligations.AddImmediateWraps
  refine ⟨fun w => decode_class7, fun x nn s => ?_⟩
  obtain ⟨t, hexec, hsum, hrest⟩ := exec_writesReg (exec_addImm s x nn)
  exact ⟨t, hexec, hsum ▸ toNat_addBytes (s.reg x) nn, hrest⟩

/-- Settles O30: class 8 with n = 0 is LD Vx, Vy, which writes Vy's value to Vx. -/
theorem copyRegister : Obligations.CopyRegister := by
  unfold Obligations.CopyRegister
  refine ⟨fun w hclass hn => ?_, fun x y s => exec_writesReg (exec_ldReg s x y)⟩
  rw [decode_class8 hclass, decodeClass8_ldReg hn]

/-- Settles O34: a shift writes Vx and then VF, so VF is the bit shifted out for x = F too. -/
theorem shiftsLeaveTheBitShiftedOut : Obligations.ShiftsLeaveTheBitShiftedOut := by
  unfold Obligations.ShiftsLeaveTheBitShiftedOut
  refine ⟨fun w hclass hn => ?_, fun w hclass hn => ?_, fun x s => ⟨?_, ?_⟩⟩
  · rw [decode_class8 hclass, decodeClass8_shr hn]
  · rw [decode_class8 hclass, decodeClass8_shl hn]
  · obtain ⟨t, hexec, hres, hflag, hrest⟩ := exec_writesRegFlag (exec_shr s x)
    exact ⟨t, hexec, fun hx => hres hx ▸ toNat_shrByte (s.reg x),
      hflag ▸ toNat_flagByte_shrBitOut (s.reg x), hrest⟩
  · obtain ⟨t, hexec, hres, hflag, hrest⟩ := exec_writesRegFlag (exec_shl s x)
    exact ⟨t, hexec, fun hx => hres hx ▸ toNat_shlByte (s.reg x),
      hflag ▸ toNat_flagByte_shlBitOut (s.reg x), hrest⟩

end Sys2Proof.Machine

/-! PROOFS. Index register and memory (42_index_and_memory.md): LD I, nnn. First what the proofs about I
share: the decoder at class A, and the frame of a write to I. -/

namespace Sys2Proof

/-! ### The decoder by class (30_encoding.md R75) -/

theorem decode_classA {w : Word} (h : fieldC w = 0xA) :
    decode w = .instr (.ldI (fieldNNN w)) := by simp [decode, h]

end Sys2Proof

namespace Sys2Proof.Machine

/-! ### What a write to I leaves alone -/

/-- A new I leaves every other part alone. -/
theorem frame_index (s : State) (a : Word) : Frame [.index] s { s with i := a } := by
  simp [Frame, State.reg, State.readByte]

/-! ### The statements -/

/-- Settles O37: class A is LD I, nnn, which writes nnn zero-extended to I. -/
theorem loadIndex : Obligations.LoadIndex := by
  unfold Obligations.LoadIndex
  refine ⟨fun w => decode_classA, fun nnn s => ?_⟩
  exact ⟨_, exec_ldI s nnn, toNat_indexOf nnn, rfl, (frame_index s _).goTo _⟩

end Sys2Proof.Machine

/-! PROOFS. Display (43_display.md): the collision flag of DRW. First what the proofs about a draw share:
the completed draw with its display and VF, and the collision as a change of cells. -/

namespace Sys2Proof.Machine

variable {s : State} {x y : RegIx} {n : Nibble}

/-! ### A draw that completes (43_display.md R181) -/

/-- The model's range check passes where the last row, if there is one, lies in memory. -/
theorem fits_of_lastRow (h : n.toNat = 0 ∨ s.i.toNat + n.toNat - 1 < s.cfg.memSize) :
    s.fits s.indexAddr n.toNat = true := by
  rw [State.fits_iff, State.indexAddr]
  omega

/-- A draw inside memory completes and leaves the drawn display, its collision in VF, and dirty set. -/
theorem exec_drw_completes (h : n.toNat = 0 ∨ s.i.toNat + n.toNat - 1 < s.cfg.memSize) :
    ∃ t, exec (.drw x y n) s = .next t ∧ t.disp = (s.drawn x y n).1 ∧
      t.reg regF = flagByte (s.drawn x y n).2 ∧ t.dirty = true :=
  ⟨_, exec_drw s (fits_of_lastRow h), rfl, State.reg_setReg_same regF _, rfl⟩

/-! ### The collision (43_display.md R182) -/

/-- A draw turns a cell off exactly when the cell was lit and the sprite lies on it. -/
theorem turnedOff_iff (c : Fin 64) (r : Fin 32) :
    pixel s.disp c r = true ∧ pixel (s.drawn x y n).1 c r = false ↔
      spriteOn s x y n c r = true ∧ pixel s.disp c r = true := by
  rw [pixel_drawn, and_comm]
  refine and_congr_left fun hlit => ?_
  rw [hlit, Bool.true_xor, Bool.not_eq_false']

/-- The collision of a draw, read off the displays before and after: some cell was turned off. -/
theorem collision_drawn_iff_turnedOff : (s.drawn x y n).2 = true ↔
    ∃ c r, pixel s.disp c r = true ∧ pixel (s.drawn x y n).1 c r = false := by
  simp only [turnedOff_iff, collision_drawn]

/-! ### The statement -/

/-- Settles O47: VF holds the collision of the draw, and that says whether a cell was turned off. -/
theorem drawCollisionFlag : Obligations.DrawCollisionFlag := by
  unfold Obligations.DrawCollisionFlag
  intro x y n s hrows
  obtain ⟨t, hexec, hdisp, hflag, -⟩ := exec_drw_completes (x := x) (y := y) hrows
  refine ⟨t, hexec, fun hoff => ?_, fun hkept => ?_⟩
  · rw [hdisp, ← collision_drawn_iff_turnedOff] at hoff
    exact hflag.trans (congrArg flagByte hoff)
  · rw [hdisp, ← collision_drawn_iff_turnedOff, Bool.not_eq_true] at hkept
    exact hflag.trans (congrArg flagByte hkept)

end Sys2Proof.Machine

/-! PROOFS. Timers and keys (44_timers_and_keys.md): LD Vx, DT and the key instructions. First what the
proofs about these rows share: the decoder at classes E and F, and the step that completes an instruction. -/

namespace Sys2Proof

variable {w : Word}

/-! ### The decoder by class (30_encoding.md R75, R76) -/

theorem decode_classE (h : fieldC w = 0xE) : decode w = decodeClassE w := by simp [decode, h]

theorem decode_classF (h : fieldC w = 0xF) : decode w = decodeClassF w := by simp [decode, h]

theorem decodeClassE_skp (h : fieldNN w = 0x9E#8) :
    decodeClassE w = .instr (.skp (fieldX w)) := by simp [decodeClassE, h]

theorem decodeClassE_sknp (h : fieldNN w = 0xA1#8) :
    decodeClassE w = .instr (.sknp (fieldX w)) := by simp [decodeClassE, h]

theorem decodeClassF_ldVxDT (h : fieldNN w = 0x07#8) :
    decodeClassF w = .instr (.ldVxDT (fieldX w)) := by simp [decodeClassF, h]

theorem decodeClassF_ldVxK (h : fieldNN w = 0x0A#8) :
    decodeClassF w = .instr (.ldVxK (fieldX w)) := by simp [decodeClassF, h]

end Sys2Proof

namespace Sys2Proof.Machine

variable {s u : State} {i : Instr}

/-! ### The step around an instruction (30_encoding.md R90) -/

/-- The step of an instruction that completes is the instruction, then the end of the step. -/
theorem step_of_exec_running (hr : s.status = .running) (hi : s.nextInstr = some i)
    (hexec : exec i s = .next u) (hu : u.status = .running) : step s = .next u.endStep := by
  obtain ⟨hw, w, hfetch, hdecode⟩ := State.nextInstr_eq_some.1 hi
  rw [step_running hr hw, fetchDecodeExecute_instr hfetch hdecode]
  exact finishStep_next.2 (.inl ⟨u, hexec, hu, rfl⟩)

/-- The tick is no register write. -/
@[simp] theorem State.reg_endStep (s : State) (k : RegIx) : s.endStep.reg k = s.reg k := rfl

/-! ### The statements -/

/-- Settles O50: FX07 writes DT to Vx, and the end of the step, with its tick, comes after that write
and leaves the registers alone. -/
theorem readDelayTimer : Obligations.ReadDelayTimer := by
  unfold Obligations.ReadDelayTimer
  refine ⟨fun w hclass hnn => ?_, fun x s => ⟨exec_writesReg (exec_ldVxDT s x), fun hr hi => ?_⟩⟩
  · rw [decode_classF hclass, decodeClassF_ldVxDT hnn]
  · refine ⟨_, step_of_exec_running hr hi (exec_ldVxDT s x) hr, ?_⟩
    rw [State.reg_endStep]
    exact State.reg_setReg_same x s.dt

/-- Settles O52: SKP and SKNP only move pc, to the next instruction, and LD Vx, K writes 0 to Vx. -/
theorem keyStubs : Obligations.KeyStubs := by
  unfold Obligations.KeyStubs
  refine ⟨fun w hclass hnn => ?_, fun w hclass hnn => ?_, fun w hclass hnn => ?_,
    fun x s => ⟨?_, ?_, ?_⟩⟩
  · rw [decode_classE hclass, decodeClassE_skp hnn]
  · rw [decode_classE hclass, decodeClassE_sknp hnn]
  · rw [decode_classF hclass, decodeClassF_ldVxK hnn]
  · exact ⟨_, exec_skp s x, rfl, frame_goTo s _⟩
  · exact ⟨_, exec_sknp s x, rfl, frame_goTo s _⟩
  · exact exec_writesReg (exec_ldVxK s x)

end Sys2Proof.Machine

/-! PROOFS. Encoding and decoding (30_encoding.md): the round trip both ways, the Undefined words,
and words written out. First the two directions between a word and its fields. -/

namespace Sys2Proof

variable {w u : Word} {c : Nat} {x y : RegIx} {n : Nibble} {nn : Byte} {nnn : Addr12} {i : Instr}

/-! ### From fields to the word: each field of an encoded shape, for simp -/

@[simp] theorem fieldC_wordNNN (hc : c < 16) (nnn : Addr12) : fieldC (wordNNN c nnn) = c :=
  (fields_wordNNN hc nnn).1

@[simp] theorem fieldNNN_wordNNN (hc : c < 16) (nnn : Addr12) : fieldNNN (wordNNN c nnn) = nnn :=
  (fields_wordNNN hc nnn).2

@[simp] theorem fieldC_wordXNN (hc : c < 16) (x : RegIx) (nn : Byte) :
    fieldC (wordXNN c x nn) = c := (fields_wordXNN hc x nn).1

@[simp] theorem fieldX_wordXNN (hc : c < 16) (x : RegIx) (nn : Byte) :
    fieldX (wordXNN c x nn) = x := (fields_wordXNN hc x nn).2.1

@[simp] theorem fieldNN_wordXNN (hc : c < 16) (x : RegIx) (nn : Byte) :
    fieldNN (wordXNN c x nn) = nn := (fields_wordXNN hc x nn).2.2

@[simp] theorem fieldC_wordXYN (hc : c < 16) (x y : RegIx) (n : Nibble) :
    fieldC (wordXYN c x y n) = c := (fields_wordXYN hc x y n).1

@[simp] theorem fieldX_wordXYN (hc : c < 16) (x y : RegIx) (n : Nibble) :
    fieldX (wordXYN c x y n) = x := (fields_wordXYN hc x y n).2.1

@[simp] theorem fieldY_wordXYN (hc : c < 16) (x y : RegIx) (n : Nibble) :
    fieldY (wordXYN c x y n) = y := (fields_wordXYN hc x y n).2.2.1

@[simp] theorem fieldN_wordXYN (hc : c < 16) (x y : RegIx) (n : Nibble) :
    fieldN (wordXYN c x y n) = n := (fields_wordXYN hc x y n).2.2.2

/-- A SYS word is none of the three words R77 takes out of class 0, so it decodes to SYS. -/
theorem decode_wordNNN_sys (h : Instr.sysAllowed nnn = true) :
    decode (wordNNN 0x0 nnn) = .instr (.sys nnn) := by
  have hne : ∀ a : Addr12, nnn ≠ a → wordNNN 0x0 nnn ≠ wordNNN 0x0 a := fun a hna heq =>
    hna (by rw [← fieldNNN_wordNNN (c := 0x0) (by omega) nnn, heq, fieldNNN_wordNNN (by omega)])
  simp only [Instr.sysAllowed, Bool.and_eq_true, bne_iff_ne] at h
  obtain ⟨⟨hnull, hcls⟩, hret⟩ := h
  rw [decode_class0 (by simp), decodeClass0_sys (hne _ hnull) (hne _ hcls) (hne _ hret)]
  simp

/-! ### From the word to its fields: a word is its class and fields put together -/

theorem fieldC_lt (w : Word) : fieldC w < 16 := (w.extractLsb' 12 4).isLt

theorem wordNNN_fields (hc : fieldC w = c) : wordNNN c (fieldNNN w) = w := by
  subst hc
  refine BitVec.eq_of_toNat_eq ?_
  rw [toNat_wordNNN (fieldC_lt w), fieldC_eq, toNat_fieldNNN]; omega

theorem wordXNN_fields (hc : fieldC w = c) (hnn : fieldNN w = nn) :
    wordXNN c (fieldX w) nn = w := by
  subst hc hnn
  refine BitVec.eq_of_toNat_eq ?_
  rw [toNat_wordXNN (fieldC_lt w), fieldC_eq, fieldX_val, toNat_fieldNN]; omega

theorem wordXYN_fields (hc : fieldC w = c) (hn : fieldN w = n) :
    wordXYN c (fieldX w) (fieldY w) n = w := by
  subst hc hn
  refine BitVec.eq_of_toNat_eq ?_
  rw [toNat_wordXYN (fieldC_lt w), fieldC_eq, fieldX_val, fieldY_val, toNat_fieldN]; omega

theorem toNat_and_maskN (w : Word) : (w &&& 0xFFF0#16).toNat = w.toNat / 16 * 16 := by
  have hshift : w &&& 0xFFF0#16 = (w >>> 4) <<< 4 := by ext b hb; interval_cases b <;> simp
  have := w.isLt
  rw [hshift]; simp [BitVec.toNat_shiftLeft, Nat.shiftRight_eq_div_pow, Nat.shiftLeft_eq]; omega

theorem toNat_and_maskY (w : Word) :
    (w &&& 0xFF0F#16).toNat = w.toNat / 256 * 256 + w.toNat % 16 := by
  have hshift : w &&& 0xFF0F#16 = ((w >>> 8) <<< 8) + ((w <<< 12) >>> 12) := by
    rw [BitVec.add_eq_or_of_and_eq_zero] <;> ext b hb <;> interval_cases b <;> simp
  have := w.isLt
  rw [hshift]; simp [BitVec.toNat_shiftLeft, Nat.shiftRight_eq_div_pow, Nat.shiftLeft_eq]; omega

/-- With n written as 0, the word but for n. -/
theorem wordXYN_zeroN (hc : fieldC w = c) :
    wordXYN c (fieldX w) (fieldY w) 0 = w &&& 0xFFF0#16 := by
  subst hc
  refine BitVec.eq_of_toNat_eq ?_
  rw [toNat_wordXYN (fieldC_lt w), fieldC_eq, fieldX_val, fieldY_val, toNat_and_maskN]
  simp; omega

/-- With y written as 0, the word but for y. -/
theorem wordXYN_zeroY (hc : fieldC w = c) (hn : fieldN w = n) :
    wordXYN c (fieldX w) 0 n = w &&& 0xFF0F#16 := by
  subst hc hn
  refine BitVec.eq_of_toNat_eq ?_
  rw [toNat_wordXYN (fieldC_lt w), fieldC_eq, fieldX_val, toNat_fieldN, toNat_and_maskY]
  simp; omega

/-! ### A decoded word against its encoding (30_encoding.md R79) -/

/-- The bits of its word that an instruction reads: all but n of 5XYN and 9XYN and y of 8XY6 and
8XYE. -/
def Instr.usedBits : Instr → Word
  | .seReg _ _ | .sneReg _ _ => 0xFFF0#16
  | .shr _ | .shl _ => 0xFF0F#16
  | _ => 0xFFFF#16

/-- i is an instruction of the core and its encoding has the bits of w that i reads. -/
def Instr.Encodes (i : Instr) (w : Word) : Prop :=
  i.wellFormed = true ∧ encode i = w &&& i.usedBits

/-- An instruction that reads every bit encodes to w itself. -/
theorem Instr.encodes_of_eq (hwf : i.wellFormed = true) (hbits : i.usedBits = 0xFFFF#16)
    (h : encode i = w) : i.Encodes w :=
  ⟨hwf, by rw [h, hbits]; exact BitVec.and_allOnes.symm⟩

theorem encodes_of_decodeClass0 (hc : fieldC w = 0x0) (h : decodeClass0 w = .instr i) :
    i.Encodes w := by
  unfold decodeClass0 at h
  split at h
  · cases h
  split at h
  · cases h; subst w; exact Instr.encodes_of_eq rfl rfl rfl
  split at h
  · cases h; subst w; exact Instr.encodes_of_eq rfl rfl rfl
  · cases h
    have hw : wordNNN 0x0 (fieldNNN w) = w := wordNNN_fields hc
    refine Instr.encodes_of_eq ?_ rfl hw
    have hne : ∀ a : Addr12, w ≠ wordNNN 0x0 a → fieldNNN w ≠ a :=
      fun a hna ha => hna (by rw [← ha, hw])
    simp only [Instr.wellFormed, Instr.sysAllowed, Bool.and_eq_true, bne_iff_ne]
    exact ⟨⟨hne _ ‹_›, hne _ ‹_›⟩, hne _ ‹_›⟩

theorem encodes_of_decodeClass8 (hc : fieldC w = 0x8) (h : decodeClass8 w = .instr i) :
    i.Encodes w := by
  unfold decodeClass8 at h
  split at h <;> cases h
  case h_7 hn | h_9 hn => exact ⟨rfl, wordXYN_zeroY hc (BitVec.eq_of_toNat_eq hn)⟩
  all_goals exact Instr.encodes_of_eq rfl rfl (wordXYN_fields hc (BitVec.eq_of_toNat_eq ‹_›))

theorem encodes_of_decodeClassE (hc : fieldC w = 0xE) (h : decodeClassE w = .instr i) :
    i.Encodes w := by
  unfold decodeClassE at h
  split at h <;> cases h
  all_goals exact Instr.encodes_of_eq rfl rfl (wordXNN_fields hc (BitVec.eq_of_toNat_eq ‹_›))

theorem encodes_of_decodeClassF (hc : fieldC w = 0xF) (h : decodeClassF w = .instr i) :
    i.Encodes w := by
  unfold decodeClassF at h
  split at h <;> cases h
  all_goals exact Instr.encodes_of_eq rfl rfl (wordXNN_fields hc (BitVec.eq_of_toNat_eq ‹_›))

/-- A decoded word is its instruction's encoding in every bit the instruction reads. -/
theorem encodes_of_decode (h : decode w = .instr i) : i.Encodes w := by
  unfold decode at h
  split at h
  case h_1 hc => exact encodes_of_decodeClass0 hc h
  case h_6 hc | h_10 hc => cases h; exact ⟨rfl, wordXYN_zeroN hc⟩
  case h_9 hc => exact encodes_of_decodeClass8 hc h
  case h_14 hc => cases h; exact Instr.encodes_of_eq rfl rfl (wordXYN_fields hc rfl)
  case h_15 hc => exact encodes_of_decodeClassE hc h
  case h_16 => exact encodes_of_decodeClassF (by have := fieldC_lt w; grind) h
  case h_2 hc | h_3 hc | h_11 hc | h_12 hc =>
    cases h; exact Instr.encodes_of_eq rfl rfl (wordNNN_fields hc)
  case h_4 hc | h_5 hc | h_7 hc | h_8 hc | h_13 hc =>
    cases h; exact Instr.encodes_of_eq rfl rfl (wordXNN_fields hc rfl)

/-! ### The words that are no instruction (30_encoding.md R77, R78) -/

theorem decodeClass0_ne_undefined : decodeClass0 w ≠ .undefined u := by
  unfold decodeClass0
  repeat' split
  all_goals simp

theorem decodeClass8_undefined : decodeClass8 w = .undefined u ↔
    u = w ∧ (fieldN w).toNat ∈ [0x8, 0x9, 0xA, 0xB, 0xC, 0xD, 0xF] := by
  have hlt := (fieldN w).isLt
  unfold decodeClass8
  interval_cases (fieldN w).toNat <;> simp [eq_comm]

theorem decodeClassE_undefined : decodeClassE w = .undefined u ↔
    u = w ∧ (fieldNN w).toNat ∉ [0x9E, 0xA1] := by
  unfold decodeClassE
  split <;> simp_all [eq_comm]

theorem decodeClassF_undefined : decodeClassF w = .undefined u ↔
    u = w ∧ (fieldNN w).toNat ∉ [0x07, 0x0A, 0x15, 0x18, 0x1E, 0x29, 0x33, 0x55, 0x65] := by
  unfold decodeClassF
  split <;> simp_all [eq_comm]

/-- The Undefined words, class by class; only classes 8, E and F have any (R78). -/
theorem decode_undefined : decode w = .undefined u ↔ u = w ∧
    ((fieldC w = 0x8 ∧ (fieldN w).toNat ∈ [0x8, 0x9, 0xA, 0xB, 0xC, 0xD, 0xF]) ∨
     (fieldC w = 0xE ∧ (fieldNN w).toNat ∉ [0x9E, 0xA1]) ∨
     (fieldC w = 0xF ∧
      (fieldNN w).toNat ∉ [0x07, 0x0A, 0x15, 0x18, 0x1E, 0x29, 0x33, 0x55, 0x65])) := by
  have hlt := fieldC_lt w
  by_cases h8 : fieldC w = 0x8
  · rw [decode_class8 h8, decodeClass8_undefined, h8]; simp
  by_cases hE : fieldC w = 0xE
  · rw [decode_classE hE, decodeClassE_undefined, hE]; simp
  by_cases hF : fieldC w = 0xF
  · rw [decode_classF hF, decodeClassF_undefined, hF]; simp
  · have hne : decode w ≠ .undefined u := by
      unfold decode
      interval_cases fieldC w <;> simp_all [decodeClass0_ne_undefined]
    simp [hne, h8, hE, hF]

/-- The null word is 0x0000 alone (R77): the classes keyed on a selector answer no null. -/
theorem decode_eq_null : decode w = .null ↔ w = 0x0000#16 := by
  refine ⟨fun h => ?_, fun h => by subst h; decide⟩
  unfold decode at h
  split at h
  case h_1 =>
    unfold decodeClass0 at h
    split at h
    · assumption
    split at h
    · cases h
    split at h <;> cases h
  case h_9 => unfold decodeClass8 at h; split at h <;> cases h
  case h_15 => unfold decodeClassE at h; split at h <;> cases h
  case h_16 => unfold decodeClassF at h; split at h <;> cases h
  all_goals cases h

end Sys2Proof

namespace Sys2Proof.Machine

/-! ### The statements -/

/-- Settles O1: the fields of an encoded word are the instruction's operands and its class and
selector those of the instruction's row; SYS excludes the three words of R77. -/
theorem decodeInvertsEncode : Obligations.DecodeInvertsEncode := by
  unfold Obligations.DecodeInvertsEncode
  intro i hwf
  cases i
  case cls | ret => decide
  case sys nnn => exact decode_wordNNN_sys hwf
  case ldReg | orReg | andReg | xorReg | addReg | subReg | shr | subnReg | shl =>
    simp [encode, decode_class8, decodeClass8]
  case skp | sknp => simp [encode, decode_classE, decodeClassE]
  case ldVxDT | ldVxK | ldDTVx | ldSTVx | addIVx | ldFVx | ldBVx | ldMemVx | ldVxMem =>
    simp [encode, decode_classF, decodeClassF]
  all_goals simp [encode, decode]

/-- Settles O2: a word is its class and fields put together, and the encoder drops n or y only where
the instruction does not carry it. -/
theorem wordIsItsEncodingButIgnoredBits : Obligations.WordIsItsEncodingButIgnoredBits := by
  unfold Obligations.WordIsItsEncodingButIgnoredBits
  intro w i h
  obtain ⟨hwf, henc⟩ := encodes_of_decode h
  exact ⟨hwf, henc.trans (by cases i <;> rfl)⟩

/-- Settles O3: class 0 alone can answer null, and classes 8, E and F alone can answer Undefined,
each for the selectors no row has. -/
theorem undefinedWordsAreThoseListed : Obligations.UndefinedWordsAreThoseListed := by
  unfold Obligations.UndefinedWordsAreThoseListed
  intro w
  refine ⟨decode_eq_null, ⟨?_, fun h => ⟨w, h⟩⟩, by simp only [decode_undefined, true_and]⟩
  rintro ⟨u, hu⟩
  obtain rfl := (decode_undefined.1 hu).1
  exact hu

/-- Settles O4, by evaluating the decoder. -/
theorem wordsWrittenOutDecode : Obligations.WordsWrittenOutDecode := by
  unfold Obligations.WordsWrittenOutDecode
  decide

end Sys2Proof.Machine

/-! PROOFS. What an instruction may change (10_state.md, 60_exceptions.md R243): the writers of each
part of the state, and the independence of the host's inputs. First the one lemma all of them use:
an instruction whose check passes leaves its effect, with pc moved to its next address. -/

namespace Sys2Proof.Machine

variable {s t : State} {i : Instr} {x k : RegIx}

/-! ### The completed instruction (30_encoding.md R91) -/

/-- What a completed instruction has written, pc aside. -/
def State.effect (s : State) : Instr → State
  | .cls => { s.flush with disp := blankDisplay }
  | .ret => s.dropTop
  | .call _ => s.push (s.pc + 2)
  | .ldImm x nn => s.setReg x nn
  | .addImm x nn => s.setReg x (addBytes (s.reg x) nn)
  | .ldReg x y => s.setReg x (s.reg y)
  | .orReg x y => s.setReg x (s.reg x ||| s.reg y)
  | .andReg x y => s.setReg x (s.reg x &&& s.reg y)
  | .xorReg x y => s.setReg x (s.reg x ^^^ s.reg y)
  | .addReg x y => s.setRegFlag x (addBytes (s.reg x) (s.reg y)) (addCarry (s.reg x) (s.reg y))
  | .subReg x y => s.setRegFlag x (subBytes (s.reg x) (s.reg y)) (subFlag (s.reg x) (s.reg y))
  | .subnReg x y => s.setRegFlag x (subBytes (s.reg y) (s.reg x)) (subFlag (s.reg y) (s.reg x))
  | .shr x => s.setRegFlag x (shrByte (s.reg x)) (shrBitOut (s.reg x))
  | .shl x => s.setRegFlag x (shlByte (s.reg x)) (shlBitOut (s.reg x))
  | .rnd x nn => s.setReg x (s.input.rnd &&& nn)
  | .ldI nnn => { s with i := indexOf nnn }
  | .addIVx x => { s with i := addIndex s.i (s.reg x) }
  | .ldFVx x => { s with i := glyphAddr (s.reg x) }
  | .drw x y n => { s.setReg regF (flagByte (s.drawn x y n).2) with
      disp := (s.drawn x y n).1, dirty := true }
  | .ldVxDT x => s.setReg x s.dt
  | .ldVxK x => s.setReg x 0
  | .ldDTVx x => { s with
      dt := s.reg x
      waiting := if s.cfg.delayInstructionBlocks && s.reg x != 0 then true else s.waiting }
  | .ldSTVx x => { s with st := s.reg x }
  | .ldBVx x => s.writeBytes s.indexAddr (bcdDigits s.cfg.bcdTensQuirk (s.reg x))
  | .ldMemVx x => s.writeBytes s.indexAddr (s.regBlock x)
  | .ldVxMem x => s.loadRegBlock x s.indexAddr
  | .sys _ | .jp _ | .seImm _ _ | .sneImm _ _ | .seReg _ _ | .sneReg _ _ | .jpV0 _ | .skp _
  | .sknp _ => s

/-- The pc a completed instruction leaves. A RET on an empty stack does not complete. -/
def State.nextPc (s : State) : Instr → Nat
  | .ret => s.top.getD 0
  | .jp nnn | .call nnn => nnn.toNat
  | .jpV0 nnn => (s.reg 0).toNat + nnn.toNat
  | .seImm x nn => if s.reg x == nn then s.pc + 4 else s.pc + 2
  | .sneImm x nn => if s.reg x != nn then s.pc + 4 else s.pc + 2
  | .seReg x y => if s.reg x == s.reg y then s.pc + 4 else s.pc + 2
  | .sneReg x y => if s.reg x != s.reg y then s.pc + 4 else s.pc + 2
  | _ => s.pc + 2

theorem exec_completes (h : s.execFatal i = none) :
    exec i s = .next ((s.effect i).goTo (s.nextPc i)) := by
  cases i
  case ret =>
    have hne : s.stack ≠ [] := by simpa [State.execFatal] using h
    have hsplit := (List.dropLast_append_getLast hne).symm
    rw [exec_ret s hsplit, State.nextPc, (State.top_of_stack hsplit).1]
    rfl
  case jp => exact exec_jp s (by simpa [State.execFatal] using h)
  case call => exact exec_call s (by simpa [State.execFatal] using h)
  case drw => exact exec_drw s (by simpa [State.execFatal] using h)
  case ldBVx => exact exec_ldBVx s (by simpa [State.execFatal] using h)
  case ldMemVx => exact exec_ldMemVx s (by simpa [State.execFatal] using h)
  case ldVxMem => exact exec_ldVxMem s (by simpa [State.execFatal] using h)
  case cls => exact exec_cls s
  all_goals rfl

/-- What an instruction did: raised its condition, or completed. -/
theorem exec_cases (ht : exec i s = .next t) :
    (∃ f, s.execFatal i = some f ∧ t = s.fatalWith f) ∨
    (s.execFatal i = none ∧ t = (s.effect i).goTo (s.nextPc i)) := by
  cases hf : s.execFatal i with
  | some f => rw [exec_of_execFatal hf] at ht; cases ht; exact .inl ⟨f, rfl, rfl⟩
  | none => rw [exec_completes hf] at ht; cases ht; exact .inr ⟨rfl, rfl⟩

/-! ### A register that changed was written -/

theorem eq_of_reg_setReg_ne {b : Byte} (h : (s.setReg x b).reg k ≠ s.reg k) : k = x :=
  Decidable.by_contra fun hk => h (State.reg_setReg_ne b hk)

theorem eq_of_reg_setRegFlag_ne {r : Byte} {f : Bool} (h : (s.setRegFlag x r f).reg k ≠ s.reg k) :
    k = x ∨ k = regF := by
  by_contra hk
  rw [not_or] at hk
  exact h (State.reg_setRegFlag_ne r f hk.1 hk.2)

theorem le_of_reg_loadRegBlock_ne {a : Nat} (h : (s.loadRegBlock x a).reg k ≠ s.reg k) : k ≤ x := by
  by_contra hk
  exact h (by rw [State.reg_loadRegBlock, if_neg hk])

/-! ### Other inputs from the host -/

/-- s with other inputs supplied by the host (60_exceptions.md R245). -/
def State.withInputs (s : State) (l : List StepInput) (no : Nat) : State :=
  { s with inputs := l, stepNo := no }

section
variable (l : List StepInput) (no : Nat)

theorem State.writeBytes_withInputs (a : Nat) (bs : List Byte) :
    (s.withInputs l no).writeBytes a bs = (s.writeBytes a bs).withInputs l no := by
  induction bs generalizing s a with
  | nil => rfl
  | cons b bs ih => exact ih (s := s.writeByte a b) (a + 1)

theorem State.readBytes_withInputs (a n : Nat) :
    (s.withInputs l no).readBytes a n = s.readBytes a n := by
  induction n generalizing a with
  | zero => rfl
  | succ n ih => exact congrArg _ (ih (a + 1))

theorem State.flush_withInputs : (s.withInputs l no).flush = s.flush.withInputs l no := by
  unfold State.flush State.withInputs
  split <;> rfl

theorem State.drawn_withInputs (x y : RegIx) (n : Nibble) :
    (s.withInputs l no).drawn x y n = s.drawn x y n := by
  unfold State.drawn
  rw [State.readBytes_withInputs]
  rfl

/-- An instruction's own check reads no input. -/
theorem State.execFatal_withInputs (i : Instr) :
    (s.withInputs l no).execFatal i = s.execFatal i := by cases i <;> rfl

theorem State.nextPc_withInputs (i : Instr) :
    (s.withInputs l no).nextPc i = s.nextPc i := by cases i <;> rfl

/-- No effect but CXNN's reads an input. -/
theorem State.effect_withInputs (hi : ∀ x nn, i ≠ .rnd x nn) :
    (s.withInputs l no).effect i = (s.effect i).withInputs l no := by
  cases i
  case rnd x nn => exact absurd rfl (hi x nn)
  case cls => simp only [State.effect, State.flush_withInputs]; rfl
  case drw => simp only [State.effect, State.drawn_withInputs]; rfl
  case ldBVx | ldMemVx => exact State.writeBytes_withInputs l no _ _
  all_goals rfl

end

/-! ### The statements -/

/-- Settles O17: neither the check nor the effect nor the next pc of another instruction reads an
input. -/
theorem onlyRndReadsTheHostInputs : Obligations.OnlyRndReadsTheHostInputs := by
  unfold Obligations.OnlyRndReadsTheHostInputs
  intro i s t l no hi ht
  change exec i (s.withInputs l no) = .next (t.withInputs l no)
  rcases exec_cases ht with ⟨f, hf, rfl⟩ | ⟨hf, rfl⟩
  · exact exec_of_execFatal (by rw [State.execFatal_withInputs, hf])
  · rw [exec_completes (by rw [State.execFatal_withInputs, hf]), State.effect_withInputs l no hi,
      State.nextPc_withInputs]
    rfl

/-- Settles O18: a fatal condition writes the status alone, and each effect names what it writes. -/
theorem specialStateHasTheListedWriters : Obligations.SpecialStateHasTheListedWriters := by
  unfold Obligations.SpecialStateHasTheListedWriters
  intro i s t ht
  rcases exec_cases ht with ⟨f, -, rfl⟩ | ⟨-, rfl⟩
  · simp
  · cases i <;> simp [State.effect]

/-- Settles O19: a register that changed is the one the effect wrote, VF where the effect writes a
flag, or one of the block FX65 loads. -/
theorem registersHaveTheListedWriters : Obligations.RegistersHaveTheListedWriters := by
  unfold Obligations.RegistersHaveTheListedWriters
  intro i s t k ht hne
  rcases exec_cases ht with ⟨f, -, rfl⟩ | ⟨-, rfl⟩
  · exact absurd rfl hne
  rw [State.reg_goTo] at hne
  cases i
  case ldImm | addImm | rnd | ldReg | orReg | andReg | xorReg | ldVxDT | ldVxK =>
    obtain rfl := eq_of_reg_setReg_ne hne; simp
  case addReg | subReg | subnReg | shr | shl =>
    obtain rfl | rfl := eq_of_reg_setRegFlag_ne hne <;> simp
  case drw =>
    obtain rfl : k = regF := eq_of_reg_setReg_ne hne
    simp
  case ldVxMem => simpa using le_of_reg_loadRegBlock_ne hne
  case cls =>
    exact absurd (State.reg_congr s.flush_v k) hne
  case ldBVx | ldMemVx => exact absurd (State.reg_congr (State.writeBytes_v _ _) k) hne
  all_goals exact absurd rfl hne

end Sys2Proof.Machine

/-! PROOFS. The step (30_encoding.md R90; 60_exceptions.md R220 to R243): fatal conditions, the
tick, frames, the tone and runs. First what a step that raises nothing leaves, and when a step
raises a given condition. -/

namespace Sys2Proof.Machine

variable {s t u : State} {i : Instr} {k : FatalKind}

/-! ### A step that raises nothing (30_encoding.md R92) -/

/-- The instruction the step executes keeps the parameters and the input of the step. -/
theorem exec_keeps_input (hexec : exec i s = .next u) : u.input = s.input ∧ u.cfg = s.cfg := by
  rcases exec_cases hexec with ⟨f, -, rfl⟩ | ⟨hf, -⟩
  · exact ⟨rfl, rfl⟩
  · obtain ⟨-, hcfg, hinputs, hno⟩ := exec_keeps hf hexec
    exact ⟨by simp only [State.input, hinputs, hno], hcfg⟩

/-- A step that raises nothing, waiting or executing an instruction that led to u, ends with the
tick on u; and u has the step's own input and parameters. -/
theorem step_ends (hr : s.status = .running) (h : (s.waiting = true ∧ u = s) ∨
      (∃ i, s.nextInstr = some i ∧ exec i s = .next u ∧ u.status = .running)) :
    step s = .next u.endStep ∧ u.input = s.input ∧ u.cfg = s.cfg := by
  rcases h with ⟨hw, rfl⟩ | ⟨i, hi, hexec, hu⟩
  · exact ⟨step_waiting hr hw, rfl, rfl⟩
  · exact ⟨step_of_exec_running hr hi hexec hu, exec_keeps_input hexec⟩

/-- What a step whose next state is t did: raised a condition and nothing else; or reached a state
u, which is s for a waiting step, and ended there with the tick. -/
theorem step_fatal_or_ends (h : step s = .next t) :
    (∃ k, t = s.fatalWith k) ∨
    ∃ u, t = u.endStep ∧ u.status = .running ∧ u.input = s.input ∧ u.cfg = s.cfg ∧
      ((s.waiting = true ∧ u = s) ∨ ∃ i, s.nextInstr = some i ∧ exec i s = .next u) := by
  obtain ⟨hr, ⟨hw, rfl⟩ | ⟨-, k, -, rfl⟩ | ⟨i, u, hi, hexec, hend⟩⟩ := step_cases h
  · exact .inr ⟨s, rfl, hr, rfl, rfl, .inl ⟨hw, rfl⟩⟩
  · exact .inl ⟨k, rfl⟩
  rcases hend with ⟨hu, rfl⟩ | ⟨k, hu, rfl⟩
  · exact .inr ⟨u, rfl, hu, (exec_keeps_input hexec).1, (exec_keeps_input hexec).2,
      .inr ⟨i, hi, hexec⟩⟩
  · rcases exec_next hexec with ⟨k', -, rfl⟩ | ⟨-, hkeep⟩
    · exact .inl ⟨k', rfl⟩
    · rw [hkeep, hr] at hu; cases hu

/-! ### A step that raises a condition (60_exceptions.md R227) -/

theorem fetchDecodeExecute_of_fetchFatal (h : s.fetchFatal k) :
    fetchDecodeExecute exec s = .next (s.fatalWith k) := by
  obtain ⟨hf, rfl⟩ | ⟨w, hf, ⟨hd, rfl⟩ | ⟨v, hd, rfl⟩⟩ := h
  · simp [fetchDecodeExecute, hf, raiseFatal_eq]
  · simp [fetchDecodeExecute, hf, hd, raiseFatal_eq]
  · simp [fetchDecodeExecute, hf, hd, raiseFatal_eq]

/-- A step raises k exactly when the fetch or the decode does, or its instruction's check does. -/
theorem step_raises_iff (hr : s.status = .running) (hw : s.waiting = false) :
    step s = .next (s.fatalWith k) ↔
      s.fetchFatal k ∨ ∃ i, s.nextInstr = some i ∧ s.execFatal i = some k := by
  constructor
  · intro h
    obtain ⟨-, ⟨hw', -⟩ | ⟨-, k', hk', heq⟩ | ⟨i, u, hi, hexec, hend⟩⟩ := step_cases h
    · rw [hw] at hw'; cases hw'
    · cases congrArg State.status heq
      exact .inl hk'
    · obtain ⟨hu, heq⟩ | ⟨k', hu, rfl⟩ := hend
      · cases (congrArg State.status heq).trans hu
      · rcases exec_next hexec with ⟨k'', hk'', heq⟩ | ⟨-, hkeep⟩
        · cases congrArg State.status heq
          exact .inr ⟨i, hi, hk''⟩
        · cases hkeep.trans hr
  · rintro (hfetch | ⟨i, hi, hk⟩)
    · rw [step_running hr hw, fetchDecodeExecute_of_fetchFatal hfetch]
    · obtain ⟨-, w, hf, hd⟩ := State.nextInstr_eq_some.1 hi
      rw [step_running hr hw, fetchDecodeExecute_instr hf hd, exec_of_execFatal hk]
      rfl

theorem fetchFatal_memoryOverflow : s.fetchFatal .memoryOverflow ↔ s.cfg.memSize ≤ s.pc + 1 := by
  simp [State.fetchFatal, State.fetch_eq_none]

theorem fetchFatal_nullInstruction :
    s.fetchFatal .nullInstruction ↔ s.fetch = some 0x0000#16 := by
  simp [State.fetchFatal, decode_eq_null]

theorem fetchFatal_undefinedOpcode :
    s.fetchFatal .undefinedOpcode ↔ ∃ w, s.fetch = some w ∧ decode w = .undefined w := by
  simp only [State.fetchFatal, reduceCtorEq, and_false, and_true, false_or]
  refine exists_congr fun w => and_congr_right fun _ => ⟨fun ⟨v, hv⟩ => ?_, fun h => ⟨w, h⟩⟩
  obtain rfl := (decode_undefined.1 hv).1
  exact hv

theorem execFatal_stackUnderflow :
    s.execFatal i = some .stackUnderflow ↔ i = .ret ∧ s.stack = [] := by
  cases i <;> simp [State.execFatal]

theorem execFatal_selfJump :
    s.execFatal i = some .selfJump ↔ ∃ nnn : Addr12, i = .jp nnn ∧ nnn.toNat = s.pc := by
  cases i <;> simp [State.execFatal]

theorem execFatal_stackOverflow : s.execFatal i = some .stackOverflow ↔
    ∃ (nnn : Addr12) (l : Nat), i = .call nnn ∧ s.cfg.stackLimit = some l ∧ l ≤ s.stack.length := by
  cases i <;> simp [State.execFatal, State.stackFull_iff]

theorem execFatal_memoryOverflow : s.execFatal i = some .memoryOverflow ↔
    (∃ x y n, i = .drw x y n ∧ 0 < n.toNat ∧ s.cfg.memSize ≤ s.i.toNat + n.toNat - 1) ∨
    (∃ x, i = .ldBVx x ∧ s.cfg.memSize ≤ s.i.toNat + 2) ∨
    (∃ x, (i = .ldMemVx x ∨ i = .ldVxMem x) ∧ s.cfg.memSize ≤ s.i.toNat + x.val) := by
  cases i <;> simp [State.execFatal, State.fits_eq_false, Nat.pos_iff_ne_zero]

theorem execFatal_ne_nullInstruction : s.execFatal i ≠ some .nullInstruction := by
  cases i <;> simp [State.execFatal]

theorem execFatal_ne_undefinedOpcode : s.execFatal i ≠ some .undefinedOpcode := by
  cases i <;> simp [State.execFatal]

/-! ### Timers and the tone (60_exceptions.md R236, R242) -/

theorem countDown_eq_zero_iff {b : Byte} {due : Bool} (hb : b ≠ 0) :
    countDown due b = 0 ↔ due = true ∧ b = 1 := by
  cases due
  · simpa using hb
  · simp only [countDown, hb, ne_eq, not_false_eq_true, and_self, if_true, true_and]
    constructor <;> intro h <;> bv_omega

/-- A tick changes the tone exactly from on to off, and takes ST from 1 to do so. -/
theorem tone_countDown_ne {b : Byte} {due : Bool} (h : (countDown due b != 0) ≠ (b != 0)) :
    due = true ∧ b = 1 := by
  by_cases hb : b = 0
  · simp [hb, countDown] at h
  · have hoff : ¬ (countDown due b != 0) = true := fun hon => h (by rw [hon]; simpa using hb)
    exact (countDown_eq_zero_iff hb).1 (by simpa using hoff)

/-- A completed step whose instruction keeps a timer leaves the timer counted down by its tick. -/
theorem step_timer {timer : State → Byte}
    (hend : ∀ u, timer u.endStep = countDown u.input.tick (timer u))
    (hkeep : ∀ i u, s.nextInstr = some i → exec i s = .next u → timer u = timer s)
    (h : step s = .next t) (ht : t.status = .running) :
    timer t = countDown s.input.tick (timer s) := by
  obtain ⟨k, rfl⟩ | ⟨u, rfl, -, hin, -, hu⟩ := step_fatal_or_ends h
  · cases ht
  · have hkept : timer u = timer s := by
      obtain ⟨-, rfl⟩ | ⟨i, hi, hexec⟩ := hu
      · rfl
      · exact hkeep i u hi hexec
    rw [hend, hin, hkept]

/-- FX15 is DT's one writer but for the tick. -/
theorem step_dt (h : step s = .next t) (ht : t.status = .running)
    (hi : ∀ x, s.nextInstr ≠ some (.ldDTVx x)) : t.dt = countDown s.input.tick s.dt := by
  refine step_timer (fun _ => rfl) (fun i u hnext hexec => Decidable.by_contra fun hne => ?_) h ht
  obtain ⟨-, -, hdt, -⟩ := specialStateHasTheListedWriters i s u hexec
  obtain ⟨x, rfl⟩ := hdt hne
  exact hi x hnext

/-- FX18 is ST's one writer but for the tick. -/
theorem step_st (h : step s = .next t) (ht : t.status = .running)
    (hi : ∀ x, s.nextInstr ≠ some (.ldSTVx x)) : t.st = countDown s.input.tick s.st := by
  refine step_timer (fun _ => rfl) (fun i u hnext hexec => Decidable.by_contra fun hne => ?_) h ht
  obtain ⟨-, -, -, hst, -⟩ := specialStateHasTheListedWriters i s u hexec
  obtain ⟨x, rfl⟩ := hst hne
  exact hi x hnext

/-- Along a run, a timer that every step counts down by its tick falls by the number of ticks. -/
theorem Steps.timer_falls {p : State → Prop} {timer : State → Byte} {ticks : List Bool}
    (hstep : ∀ s u, p s → step s = .next u → u.status = .running →
      timer u = countDown s.input.tick (timer s)) (h : Steps p s ticks t) :
    (timer t).toNat = (timer s).toNat - ticks.count true := by
  induction h with
  | done s => rfl
  | more s u t ticks hp hs hu rest ih =>
    rw [ih, hstep s u hp hs hu, toNat_countDown, List.count_cons, Nat.sub_sub]
    cases s.input.tick <;> simp [Nat.add_comm]

/-! ### The statements -/

/-- Settles O5: the word at pc is fetched and decoded, and the end of the step follows the
instruction unless it raised a condition. -/
theorem stepRunsTheDecodedInstruction : Obligations.StepRunsTheDecodedInstruction := by
  unfold Obligations.StepRunsTheDecodedInstruction
  intro s i w hr hw hpc hword hdecode
  have hfetch : s.fetch = some w :=
    State.fetch_eq_some.2 ⟨hpc, BitVec.eq_of_toNat_eq (by rw [hword, toNat_wordOfBytes])⟩
  have hstep : step s = finishStep (exec i s) := by
    rw [step_running hr hw, fetchDecodeExecute_instr hfetch hdecode]
  refine ⟨hfetch, fun t hexec ht => ?_, fun t k hexec ht => ?_⟩
  · rw [hstep, ← (exec_keeps_input hexec).1]
    exact finishStep_next.2 (.inl ⟨t, hexec, ht, rfl⟩)
  · rw [hstep]
    exact finishStep_next.2 (.inr ⟨k, hexec, ht⟩)

/-- Settles O6: a waiting core ticks; otherwise the fetch or the decode raises a condition, or the
instruction answers a next state and so does the rest of the step. -/
theorem runningCoreAlwaysSteps : Obligations.RunningCoreAlwaysSteps := by
  unfold Obligations.RunningCoreAlwaysSteps
  intro s hr
  by_cases hw : s.waiting = true
  · exact ⟨_, step_waiting hr hw⟩
  rw [step_running hr (Bool.eq_false_iff.2 hw), fetchDecodeExecute]
  split
  · exact ⟨_, rfl⟩
  split
  · exact ⟨_, rfl⟩
  · exact ⟨_, rfl⟩
  · next i _ =>
    obtain ⟨u, hu⟩ := exec_total i s
    rw [hu]
    cases hstatus : u.status with
    | running => exact ⟨_, finishStep_next.2 (.inl ⟨u, rfl, hstatus, rfl⟩)⟩
    | fatal k => exact ⟨_, finishStep_next.2 (.inr ⟨k, rfl, hstatus⟩)⟩

/-- Settles O7: the status is checked first. -/
theorem fatalCoreHasNoStep : Obligations.FatalCoreHasNoStep := by
  unfold Obligations.FatalCoreHasNoStep
  intro s k hs
  simp [step, runNext, hs]

/-- Settles O8: a step that did not raise its condition on s ended Running. -/
theorem fatalStepChangesOnlyTheStatus : Obligations.FatalStepChangesOnlyTheStatus := by
  unfold Obligations.FatalStepChangesOnlyTheStatus
  intro s t k h ht
  obtain ⟨k', rfl⟩ | ⟨u, rfl, hu, -⟩ := step_fatal_or_ends h
  · cases ht; rfl
  · cases hu.symm.trans ht

/-- Settles O9: each kind is raised by the fetch, by the decode or by the checks of its own
instructions. -/
theorem fatalConditionsHaveTheListedCauses : Obligations.FatalConditionsHaveTheListedCauses := by
  unfold Obligations.FatalConditionsHaveTheListedCauses
  intro s k hr hw
  rw [step_raises_iff hr hw]
  cases k
  case nullInstruction => simp [fetchFatal_nullInstruction, execFatal_ne_nullInstruction]
  case undefinedOpcode => simp [fetchFatal_undefinedOpcode, execFatal_ne_undefinedOpcode]
  case stackUnderflow => simp [State.fetchFatal, execFatal_stackUnderflow]
  case selfJump => simp [State.fetchFatal, execFatal_selfJump]
  case stackOverflow => simp [State.fetchFatal, execFatal_stackOverflow]
  case memoryOverflow =>
    rw [fetchFatal_memoryOverflow]
    cases s.nextInstr <;> simp [execFatal_memoryOverflow]

/-- Settles O10: the word of two zero bytes is the null word, which the decode stops at. -/
theorem nullWordEndsTheRun : Obligations.NullWordEndsTheRun := by
  unfold Obligations.NullWordEndsTheRun
  refine ⟨rfl, fun s hr hw hpc hhi hlo => ?_⟩
  have hfetch : s.fetch = some 0x0000#16 :=
    State.fetch_eq_some.2 ⟨hpc, by rw [hhi, hlo]; decide⟩
  exact ⟨_, (step_raises_iff hr hw).2 (.inl (fetchFatal_nullInstruction.2 hfetch)), rfl, rfl, rfl⟩

/-- Settles O11: the step is the end of a step alone, and its tick ends the wait where it leaves DT
at 0. -/
theorem waitingStepOnlyTicks : Obligations.WaitingStepOnlyTicks := by
  unfold Obligations.WaitingStepOnlyTicks
  intro s hr hw
  refine ⟨_, step_waiting hr hw, rfl, ?_, toNat_countDown _ _, ?_⟩
  · simp [Frame, State.reg, State.readByte]
  · simp [hw]

/-- Settles O12: the end of the step counts each timer down on u, with the step's own tick. -/
theorem tickCountsTheTimersDown : Obligations.TickCountsTheTimersDown := by
  unfold Obligations.TickCountsTheTimersDown
  intro s u hr h
  obtain ⟨hstep, hin, -⟩ := step_ends hr h
  refine ⟨_, hstep, fun htick => ?_, fun htick => ?_⟩
  · simp [hin, htick]
  · simp [hin, htick, toNat_countDown]

/-- Settles O13: the end of the step renders u by the rule of R237 and R241. -/
theorem tickRendersADirtyDisplay : Obligations.TickRendersADirtyDisplay := by
  unfold Obligations.TickRendersADirtyDisplay
  intro s u hr h
  obtain ⟨hstep, hin, hcfg⟩ := step_ends hr h
  have hrender : u.tickRenders u.input.tick = true ↔
      s.input.tick = true ∧ u.dirty = true ∧ s.cfg.renderOnClearOnly = false := by
    rw [State.tickRenders, hin, hcfg]; simp [and_comm, and_assoc]
  refine ⟨_, hstep, rfl, fun hyes => ?_, fun hno => ?_⟩
  · rw [← hrender] at hyes; simp [hyes]
  · rw [← hrender, Bool.not_eq_true] at hno; simp [hno]

/-- Settles O14: an instruction renders only as CLS, which leaves nothing for the tick to render. -/
theorem atMostOneFramePerStep : Obligations.AtMostOneFramePerStep := by
  unfold Obligations.AtMostOneFramePerStep
  intro s t h
  obtain ⟨k, rfl⟩ | ⟨u, rfl, -, hin, -, hu⟩ := step_fatal_or_ends h
  · exact .inl rfl
  by_cases hframes : u.frames = s.frames
  · cases hrender : u.tickRenders u.input.tick with
    | false => exact .inl (by simp [hrender, hframes])
    | true =>
      have htick : s.input.tick = true := by rw [← hin]; simp_all [State.tickRenders]
      exact .inr (.inr ⟨by simp [hrender, hframes], htick, by simp [hrender]⟩)
  · obtain ⟨-, rfl⟩ | ⟨i, hnext, hexec⟩ := hu
    · exact absurd rfl hframes
    obtain ⟨-, -, -, -, -, -, -, hcls, -⟩ := specialStateHasTheListedWriters i s u hexec
    obtain rfl := hcls hframes
    rw [exec_cls] at hexec
    cases hexec
    have hdirty : s.dirty = true := by by_contra hclean; exact hframes (by simp [hclean])
    exact .inr (.inl ⟨by simp [hdirty, State.tickRenders], hnext, hdirty, by simp⟩)

/-- Settles O15: but for FX18 a completed step leaves ST counted down by the tick. -/
theorem toneChangesOnlyAtLoadOrTick : Obligations.ToneChangesOnlyAtLoadOrTick := by
  unfold Obligations.ToneChangesOnlyAtLoadOrTick
  intro s t h hne
  by_cases hload : ∃ x, s.nextInstr = some (.ldSTVx x)
  · exact .inl hload
  have ht : t.status = .running := by
    obtain ⟨k, rfl⟩ | ⟨u, rfl, hu, -⟩ := step_fatal_or_ends h
    · exact absurd rfl hne
    · exact hu
  have hst := step_st h ht (not_exists.1 hload)
  rw [State.tone, State.tone, hst] at hne
  obtain ⟨htick, hone⟩ := tone_countDown_ne hne
  refine .inr ⟨htick, hone, by simp [State.tone, hone], ?_⟩
  simp [State.tone, hst, htick, hone, countDown]

/-- Settles O16: by induction on the run, with what one step does to each timer. -/
theorem timersFallByTheTicksOfARun : Obligations.TimersFallByTheTicksOfARun := by
  unfold Obligations.TimersFallByTheTicksOfARun
  refine ⟨fun s t ticks hrun => ?_, fun s t ticks hrun => ?_⟩
  · exact hrun.timer_falls (timer := State.dt) fun _ _ hp hs hu => step_dt hs hu hp
  · exact hrun.timer_falls (timer := State.st) fun _ _ hp hs hu => step_st hs hu hp

end Sys2Proof.Machine

/-! PROOFS. Reset, load and the invariant (70_reset_and_hazards.md; 10_state.md sections 1 to 8).
The invariant is shown of construction, of the load and of each way a step can end, and so of every
reachable state. -/

namespace Sys2Proof.Machine

variable {s t : State} {i : Instr} {c : Config}

/-! ### Construction and load (70_reset_and_hazards.md R260, R263) -/

/-- A load that is not refused wrote an image that fits. -/
theorem State.loadProgram_eq_some {image : List Byte} : s.loadProgram image = some t ↔
    image.length + 0x200 ≤ s.cfg.memSize ∧ t = s.writeBytes 0x200 image := by
  unfold State.loadProgram
  split <;> simp_all [eq_comm]

/-- Writing bytes is a memory write and nothing else. -/
theorem frame_writeBytes (s : State) (a : Nat) (bs : List Byte) :
    Frame [.memory] s (s.writeBytes a bs) := by
  simp [Frame, State.reg]

theorem bytesKept_writeBytes (s : State) (a : Nat) (bs : List Byte) :
    BytesKept a bs.length s (s.writeBytes a bs) := fun _ => State.readByte_writeBytes_outside

/-! ### The invariant of construction and of each end of a step -/

theorem memSize_le_of_wf (h : c.wf = true) : c.memSize ≤ 65536 := by
  simp only [Config.wf, Bool.and_eq_true, decide_eq_true_eq] at h
  exact h.1.2

theorem Inv.reset (h : c.wf = true) : Inv (State.resetWith c) where
  params := h
  memory := rfl
  pcBound := by simp [State.resetWith]
  returnBound := by simp [State.resetWith]
  depth := by simp [State.resetWith]
  waitsUnderOption := by simp [State.resetWith]
  waitsOnDelay := by simp [State.resetWith]

/-- A write below MEM_SIZE keeps the invariant. -/
theorem Inv.writeBytes {a : Nat} {bs : List Byte} (h : Inv s) (hb : a + bs.length ≤ s.cfg.memSize) :
    Inv (s.writeBytes a bs) := by
  have hmem := State.memWf_writeBytes (a := a) h.memory (.inr hb)
  rw [State.writeBytes_eq]
  exact { h with memory := hmem }

theorem Inv.fatalWith (h : Inv s) (k : FatalKind) : Inv (s.fatalWith k) := { h with }

theorem Inv.supply (h : Inv s) (l : List StepInput) : Inv { s with inputs := l } := { h with }

/-- The tick that leaves DT at 0 ends the wait, so a core that waits on still has a DT that is not
0. -/
theorem Inv.endStep (h : Inv s) : Inv s.endStep where
  params := h.params
  memory := h.memory
  pcBound := h.pcBound
  returnBound := h.returnBound
  depth := h.depth
  waitsUnderOption hw := h.waitsUnderOption (Bool.and_eq_true_iff.1 hw).1
  waitsOnDelay hw := by
    obtain ⟨hwaits, hgoesOn⟩ := Bool.and_eq_true_iff.1 hw
    rw [State.endStep_dt]
    cases htick : s.input.tick with
    | false => simpa using h.waitsOnDelay hwaits
    | true => simpa [htick] using hgoesOn

/-! ### The invariant of a completed instruction, part by part -/

@[simp] theorem State.effect_cfg (s : State) (i : Instr) : (s.effect i).cfg = s.cfg := by
  cases i <;> simp [State.effect]

/-- The range check of FX33 and FX55 keeps their writes below MEM_SIZE. -/
theorem memWf_effect (h : Memory.wf s.cfg s.mem = true) (hf : s.execFatal i = none) :
    Memory.wf s.cfg (s.effect i).mem = true := by
  cases i
  case cls => simpa [State.effect] using h
  case ldBVx =>
    refine State.memWf_writeBytes h (.inr ?_)
    simpa [State.execFatal, State.fits_iff] using hf
  case ldMemVx =>
    refine State.memWf_writeBytes h (.inr ?_)
    simpa [State.execFatal, State.fits_iff] using hf
  all_goals exact h

/-- Within 17 bits: a fetched pc moves on by at most 4, a return address is at most 65536, and V0 +
nnn is at most 255 + 4095. -/
theorem nextPc_lt (hpc : s.pc < 65535) (hret : ∀ a ∈ s.stack, a ≤ 65536) : s.nextPc i < 65540 := by
  cases i
  case ret =>
    cases htop : s.top with
    | none => simp [State.nextPc, htop]
    | some a =>
      have := hret a (by rw [State.stack_of_top htop]; simp)
      simp only [State.nextPc, htop, Option.getD_some]; omega
  case jp nnn | call nnn => have := nnn.isLt; simp only [State.nextPc]; omega
  case jpV0 nnn =>
    have := nnn.isLt
    have := (s.reg 0).isLt
    simp only [State.nextPc]; omega
  case seImm | sneImm | seReg | sneReg => simp only [State.nextPc]; split <;> omega
  all_goals simp only [State.nextPc]; omega

theorem returnBound_effect (hpc : s.pc < 65535) (h : ∀ a ∈ s.stack, a ≤ 65536) :
    ∀ a ∈ (s.effect i).stack, a ≤ 65536 := by
  cases i
  case ret => exact fun a ha => h a (List.mem_of_mem_dropLast ha)
  case call =>
    intro a ha
    rcases List.mem_append.1 ha with ha | ha
    · exact h a ha
    · rw [List.mem_singleton.1 ha]; omega
  all_goals simpa [State.effect] using h

/-- CALL's own check keeps the stack within its limit. -/
theorem depth_effect (hf : s.execFatal i = none) {l : Nat} (hl : s.cfg.stackLimit = some l)
    (h : s.stack.length ≤ l) : (s.effect i).stack.length ≤ l := by
  cases i
  case ret => simp only [State.effect, State.dropTop_stack, List.length_dropLast]; omega
  case call =>
    have hroom : s.stack.length < l := by
      simpa [State.execFatal, State.stackFull_iff, hl] using hf
    simpa [State.effect] using hroom
  all_goals simpa [State.effect] using h

/-- Only FX15 starts a wait, under the option and with the DT it loads not 0. -/
theorem waits_effect (hw : s.waiting = false) (h : (s.effect i).waiting = true) :
    s.cfg.delayInstructionBlocks = true ∧ (s.effect i).dt ≠ 0 := by
  cases i
  case ldDTVx x => simpa [State.effect, hw] using h
  all_goals simp [State.effect, hw] at h

/-- An instruction that completes, fetched inside memory by a core that does not wait, keeps the
invariant. -/
theorem Inv.effect (h : Inv s) (hw : s.waiting = false) (hpc : s.pc + 1 < s.cfg.memSize)
    (hf : s.execFatal i = none) : Inv ((s.effect i).goTo (s.nextPc i)) := by
  have hpc' : s.pc < 65535 := by have := memSize_le_of_wf h.params; omega
  exact {
    params := by simpa using h.params
    memory := by simpa using memWf_effect h.memory hf
    pcBound := nextPc_lt hpc' h.returnBound
    returnBound := returnBound_effect hpc' h.returnBound
    depth := fun l hl => by
      have hl' : s.cfg.stackLimit = some l := by simpa using hl
      exact depth_effect hf hl' (h.depth l hl')
    waitsUnderOption := fun hwait => by simpa using (waits_effect hw hwait).1
    waitsOnDelay := fun hwait => (waits_effect hw hwait).2 }

theorem Inv.exec (h : Inv s) (hi : s.nextInstr = some i) (ht : exec i s = .next t) : Inv t := by
  obtain ⟨hw, w, hfetch, -⟩ := State.nextInstr_eq_some.1 hi
  rcases exec_cases ht with ⟨k, -, rfl⟩ | ⟨hf, rfl⟩
  · exact h.fatalWith k
  · exact h.effect hw (State.fetch_eq_some.1 hfetch).1 hf

/-- A step keeps the invariant, whichever way it ends. -/
theorem Inv.step (h : Inv s) (hs : step s = .next t) : Inv t := by
  obtain ⟨k, rfl⟩ | ⟨u, rfl, -, -, -, ⟨-, rfl⟩ | ⟨i, hi, hexec⟩⟩ := step_fatal_or_ends hs
  · exact h.fatalWith k
  · exact h.endStep
  · exact (h.exec hi hexec).endStep

theorem Inv.loadProgram (h : Inv s) {image : List Byte} (hl : s.loadProgram image = some t) :
    Inv t := by
  obtain ⟨hfit, rfl⟩ := State.loadProgram_eq_some.1 hl
  exact h.writeBytes (by omega)

theorem Reachable.inv (h : Reachable s) : Inv s := by
  induction h with
  | boot c image s hc hl => exact (Inv.reset hc).loadProgram hl
  | supply s l _ ih => exact ih.supply l
  | step s t _ hs ih => exact ih.step hs

/-! ### The statements -/

/-- Settles O53: construction lists no byte of memory, so each reads as the font or 0. -/
theorem constructionState : Obligations.ConstructionState := by
  unfold Obligations.ConstructionState
  intro c
  refine ⟨fun a h => dif_pos h, fun a h => dif_neg (by omega), fun k => ?_, rfl, rfl, rfl, rfl,
    pixel_blankDisplay, rfl, rfl, rfl, rfl⟩
  simp [State.resetWith, State.reg]

/-- Settles O54: a load is a write of the whole image, and the first fetch reads its first two
bytes. -/
theorem loadProgramPlacesTheImage : Obligations.LoadProgramPlacesTheImage := by
  unfold Obligations.LoadProgramPlacesTheImage
  intro c image
  refine ⟨fun hfit => ?_, fun hlong => if_neg (by simpa [State.resetWith] using hlong)⟩
  have hbyte : ∀ k (hk : k < image.length),
      ((State.resetWith c).writeBytes 0x200 image).readByte (0x200 + k) = image[k] :=
    fun k hk => State.readByte_writeBytes_inside rfl (by rw [Nat.add_comm]; exact hfit) hk
  refine ⟨_, State.loadProgram_eq_some.2 ⟨hfit, rfl⟩, hbyte, bytesKept_writeBytes _ _ _,
    State.writeBytes_pc _ _, frame_writeBytes _ _ _, ?_⟩
  rintro b0 b1 rest rfl
  refine ⟨wordOfBytes b0 b1, State.fetch_eq_some.2 ⟨?_, ?_⟩, toNat_wordOfBytes b0 b1⟩
  · simp only [State.writeBytes_pc, State.writeBytes_cfg, State.resetWith]
    simp only [List.length_cons] at hfit
    omega
  · rw [State.writeBytes_pc]
    exact congrArg₂ _ (hbyte 0 (by simp)).symm (hbyte 1 (by simp)).symm

/-- Settles O55: the invariant of construction, and of a write below MEM_SIZE. -/
theorem constructionMeetsTheInvariant : Obligations.ConstructionMeetsTheInvariant := by
  unfold Obligations.ConstructionMeetsTheInvariant
  exact fun c hc => ⟨Inv.reset hc, fun image t hl => (Inv.reset hc).loadProgram hl⟩

/-- Settles O56: each of the three ways a step can end keeps the invariant. -/
theorem stepKeepsTheInvariant : Obligations.StepKeepsTheInvariant := by
  unfold Obligations.StepKeepsTheInvariant
  exact fun s t h hs => h.step hs

/-- Settles O57: by induction on how the state was reached. -/
theorem reachableStatesMeetTheInvariant : Obligations.ReachableStatesMeetTheInvariant := by
  unfold Obligations.ReachableStatesMeetTheInvariant
  refine fun s h => ⟨h.inv, fun hoption => Bool.eq_false_iff.2 fun hw => ?_⟩
  have := h.inv.waitsUnderOption hw
  rw [hoption] at this
  cases this

end Sys2Proof.Machine

/-! PROOFS. Control flow (40_control_flow.md): CALL, RET after it, the skips on two registers and JP
V0. -/

namespace Sys2Proof

variable {w : Word}

/-! ### The decoder by class (30_encoding.md R75, R79) -/

theorem decode_class5 (h : fieldC w = 0x5) :
    decode w = .instr (.seReg (fieldX w) (fieldY w)) := by simp [decode, h]

theorem decode_class9 (h : fieldC w = 0x9) :
    decode w = .instr (.sneReg (fieldX w) (fieldY w)) := by simp [decode, h]

end Sys2Proof

namespace Sys2Proof.Machine

variable {s : State}

/-- A stack below every finite limit is not full (R105). -/
theorem stackFull_eq_false (h : ∀ l, s.cfg.stackLimit = some l → s.stack.length < l) :
    s.stackFull = false := by
  rw [Bool.eq_false_iff, ne_eq, State.stackFull_iff]
  rintro ⟨l, hl, hfull⟩
  exact absurd (h l hl) (by omega)

/-! ### The statements -/

/-- Settles O23: CALL by whether the stack is full. -/
theorem callPushesTheReturnAddress : Obligations.CallPushesTheReturnAddress := by
  unfold Obligations.CallPushesTheReturnAddress
  refine fun nnn s => ⟨fun hroom => ?_, fun l hl hfull => ?_⟩
  · exact ⟨_, exec_call s (stackFull_eq_false hroom), rfl, rfl, (frame_stack s _).goTo _⟩
  · exact exec_call_full s (State.stackFull_iff.2 ⟨l, hl, hfull⟩)

/-- Settles O24: a CALL that left the core Running pushed pc + 2, which is then the top RET pops. -/
theorem retResumesAfterTheCall : Obligations.RetResumesAfterTheCall := by
  unfold Obligations.RetResumesAfterTheCall
  intro nnn s u v hcall hu _ hstack
  cases hfull : s.stackFull with
  | true => rw [exec_call_full s hfull] at hcall; cases hcall; cases hu
  | false =>
    rw [exec_call s hfull] at hcall
    cases hcall
    exact ⟨_, exec_ret v hstack, rfl, rfl⟩

/-- Settles O26: both are skips, SE on equality and SNE on its negation, and classes 5 and 9 ignore
n. -/
theorem registerSkips : Obligations.RegisterSkips := by
  unfold Obligations.RegisterSkips
  refine ⟨fun w => decode_class5, fun w => decode_class9, fun x y s => ⟨?_, ?_⟩⟩
  · simpa using exec_skip (exec_seReg s x y)
  · simpa using exec_skip (exec_sneReg s x y)

/-- Settles O27: JP V0 moves pc to the sum and checks nothing. -/
theorem jpV0AddsTheOffset : Obligations.JpV0AddsTheOffset := by
  unfold Obligations.JpV0AddsTheOffset
  exact fun nnn s => ⟨_, exec_jpV0 s nnn, rfl, frame_goTo s _⟩

end Sys2Proof.Machine

/-! PROOFS. ALU (41_alu.md): the logic operations, the additions and subtractions of registers, and
RND. Each is one of the two endings of an ALU instruction, with the value written read as the
statement puts it. -/

namespace Sys2Proof.Machine

theorem flagByte_decide (p : Prop) [Decidable p] : flagByte (decide p) = if p then 1 else 0 := by
  by_cases h : p <;> simp [flagByte, h]

/-- VF after an addition (R139). -/
theorem flagByte_addCarry (a b : Byte) :
    flagByte (addCarry a b) = if 255 < a.toNat + b.toNat then 1 else 0 := flagByte_decide _

/-- VF after a subtraction (R140, R142). -/
theorem flagByte_subFlag (a b : Byte) :
    flagByte (subFlag a b) = if b.toNat < a.toNat then 1 else 0 := flagByte_decide _

/-! ### The statements -/

/-- Settles O31: the value written is the operation on whole bytes, which is the operation on each
bit. -/
theorem logicOperations : Obligations.LogicOperations := by
  unfold Obligations.LogicOperations
  refine fun x y s => ⟨?_, ?_, ?_⟩
  · obtain ⟨t, hexec, hres, hrest⟩ := exec_writesReg (exec_orReg s x y)
    exact ⟨t, hexec, fun b => by rw [hres, BitVec.getLsbD_or], hrest⟩
  · obtain ⟨t, hexec, hres, hrest⟩ := exec_writesReg (exec_andReg s x y)
    exact ⟨t, hexec, fun b => by rw [hres, BitVec.getLsbD_and], hrest⟩
  · obtain ⟨t, hexec, hres, hrest⟩ := exec_writesReg (exec_xorReg s x y)
    exact ⟨t, hexec, fun b => by rw [hres, BitVec.getLsbD_xor], hrest⟩

/-- Settles O32: the sum goes to Vx and then the carry to VF. -/
theorem addRegistersWithCarry : Obligations.AddRegistersWithCarry := by
  unfold Obligations.AddRegistersWithCarry
  intro x y s
  obtain ⟨t, hexec, hres, hflag, hrest⟩ := exec_writesRegFlag (exec_addReg s x y)
  exact ⟨t, hexec, fun hx => hres hx ▸ toNat_addBytes _ _,
    hflag.trans (flagByte_addCarry _ _), hrest⟩

/-- Settles O33: the difference goes to Vx and then the flag to VF; SUBN swaps the operands. -/
theorem subtractRegistersWithFlag : Obligations.SubtractRegistersWithFlag := by
  unfold Obligations.SubtractRegistersWithFlag
  refine fun x y s => ⟨?_, ?_⟩
  · obtain ⟨t, hexec, hres, hflag, hrest⟩ := exec_writesRegFlag (exec_subReg s x y)
    exact ⟨t, hexec, fun hx => hres hx ▸ toNat_subBytes _ _,
      hflag.trans (flagByte_subFlag _ _), hrest⟩
  · obtain ⟨t, hexec, hres, hflag, hrest⟩ := exec_writesRegFlag (exec_subnReg s x y)
    exact ⟨t, hexec, fun hx => hres hx ▸ toNat_subBytes _ _,
      hflag.trans (flagByte_subFlag _ _), hrest⟩

/-- Settles O35: the step's input is the first of those supplied. -/
theorem randomAnd : Obligations.RandomAnd := by
  unfold Obligations.RandomAnd
  intro x nn s inp rest hinputs
  have hin : s.input = inp := by rw [State.input, hinputs]
  obtain ⟨t, hexec, hres, hrest⟩ := exec_writesReg (exec_rnd s x nn)
  exact ⟨t, hexec, fun b => by rw [hres, hin, BitVec.getLsbD_and], hrest⟩

/-- Settles O36: whatever the random byte is, nn masks it. -/
theorem randomAndCompletesOnAnyInput : Obligations.RandomAndCompletesOnAnyInput := by
  unfold Obligations.RandomAndCompletesOnAnyInput
  intro x nn s
  obtain ⟨t, hexec, hres, hrest⟩ := exec_writesReg (exec_rnd s x nn)
  refine ⟨t, hexec, ?_, ?_, hrest⟩
  · rw [hres, BitVec.toNat_and]; exact Nat.and_le_right
  · rw [hres, BitVec.and_assoc, BitVec.and_self]

end Sys2Proof.Machine

/-! PROOFS. Index register and memory (42_index_and_memory.md): ADD I, LD F, the stores and the load
through I, and the canonical form of memory (20_memory.md). -/

namespace Sys2Proof.Machine

variable {c : Config} {m m' : Memory} {lo : Nat} {s : State} {x : RegIx}

/-! ### Canonical memory (20_memory.md R50; log 9) -/

/-- The first listed cell of a canonical memory does not read as its byte at construction. -/
theorem memRead_head_ne {k : Nat} {b : Byte} (h : memWfFrom c lo ((k, b) :: m) = true) :
    memRead c ((k, b) :: m) k ≠ resetByte c k := by
  obtain ⟨-, -, hb, -⟩ := memWfFrom_cons.1 h
  rwa [memRead, if_pos rfl]

/-- A canonical memory that reads like another lists no cell below the other's first. -/
theorem head_le_of_reads {k k' : Nat} {b b' : Byte} (h : memWfFrom c lo ((k, b) :: m) = true)
    (h' : memWfFrom c lo ((k', b') :: m') = true)
    (hreads : ∀ a, memRead c ((k, b) :: m) a = memRead c ((k', b') :: m') a) : k' ≤ k := by
  by_contra hlt
  have hfrom : memWfFrom c k' ((k', b') :: m') = true :=
    memWfFrom_cons.2 ⟨le_rfl, (memWfFrom_cons.1 h').2⟩
  exact memRead_head_ne h ((hreads k).trans (memRead_below hfrom (by omega)))

/-- Canonical memories that read alike list the same cells: the same first cell, and rests that read
alike. -/
theorem eq_of_reads (h : memWfFrom c lo m = true) (h' : memWfFrom c lo m' = true)
    (hreads : ∀ a, memRead c m a = memRead c m' a) : m = m' := by
  induction m generalizing lo m' with
  | nil =>
    cases m' with
    | nil => rfl
    | cons e' rest' => exact absurd (hreads e'.1).symm (memRead_head_ne h')
  | cons e rest ih =>
    cases m' with
    | nil => exact absurd (hreads e.1) (memRead_head_ne h)
    | cons e' rest' =>
      obtain ⟨k, b⟩ := e
      obtain ⟨k', b'⟩ := e'
      obtain rfl : k = k' :=
        Nat.le_antisymm (head_le_of_reads h' h fun a => (hreads a).symm)
          (head_le_of_reads h h' hreads)
      obtain rfl : b = b' := by simpa [memRead] using hreads k
      obtain ⟨-, -, -, hrest⟩ := memWfFrom_cons.1 h
      obtain ⟨-, -, -, hrest'⟩ := memWfFrom_cons.1 h'
      rw [ih hrest hrest' fun a => ?_]
      by_cases ha : k = a
      · subst ha; rw [memRead_below hrest (by omega), memRead_below hrest' (by omega)]
      · simpa [memRead, ha] using hreads a

/-! ### The range of a transfer (42_index_and_memory.md) -/

/-- The range check in the statements' words: the last of the n + 1 bytes at I lies in memory. -/
theorem fits_of_last {n : Nat} (h : s.i.toNat + n < s.cfg.memSize) :
    s.fits s.indexAddr (n + 1) = true := by
  rw [State.fits_iff, State.indexAddr]; omega

theorem not_fits_of_last {n : Nat} (h : s.cfg.memSize ≤ s.i.toNat + n) :
    s.fits s.indexAddr (n + 1) = false := by
  rw [State.fits_eq_false, State.indexAddr]; omega

/-- The digits FX33 stores, one by one (R163). -/
theorem toNat_getElem_bcdDigits (q : Bool) (b : Byte) : (bcdDigits q b)[0].toNat = b.toNat / 100 ∧
    (bcdDigits q b)[1].toNat = b.toNat / 10 % (if q then 100 else 10) ∧
    (bcdDigits q b)[2].toNat = b.toNat % 10 := by
  have h := toNat_bcdDigits q b
  simp only [bcdDigits, List.map_cons, List.map_nil, List.cons.injEq, and_true] at h
  obtain ⟨hhundreds, htens, hones⟩ := h
  exact ⟨hhundreds, htens.trans (by cases q <;> rfl), hones⟩

/-- After FX55 the byte at I + k is Vk. -/
theorem readByte_dump (hm : Memory.wf s.cfg s.mem = true)
    (hlast : s.i.toNat + x.val < s.cfg.memSize) {k : RegIx} (hk : k ≤ x) :
    (s.writeBytes s.indexAddr (s.regBlock x)).readByte (s.i.toNat + k.val) = s.reg k := by
  have hlt : k.val < (s.regBlock x).length := by
    rw [State.length_regBlock]; exact Nat.lt_succ_of_le hk
  rw [← State.getElem_regBlock hlt]
  refine State.readByte_writeBytes_inside hm ?_ hlt
  rw [State.length_regBlock, State.indexAddr]; omega

/-- The block FX65 loads is registers alone. -/
theorem frame_loadRegBlock (s : State) (x : RegIx) (a : Nat) :
    Frame [.regs] s (s.loadRegBlock x a) := by
  simp [Frame, State.readByte]

/-! ### The statements -/

/-- Settles O38: both write I alone, with the value of R161 and of R162. -/
theorem indexArithmetic : Obligations.IndexArithmetic := by
  unfold Obligations.IndexArithmetic
  refine fun x s => ⟨?_, ?_⟩
  · exact ⟨_, exec_addIVx s x, toNat_addIndex _ _, rfl, (frame_index s _).goTo _⟩
  · exact ⟨_, exec_ldFVx s x, toNat_glyphAddr _, rfl, (frame_index s _).goTo _⟩

/-- Settles O39: three bytes that fit are written with the digits, and otherwise the check fails. -/
theorem bcdStoresTheDigits : Obligations.BcdStoresTheDigits := by
  unfold Obligations.BcdStoresTheDigits
  refine fun x s hm => ⟨fun hlast => ?_, fun hover =>
    exec_ldBVx_overflow s (not_fits_of_last hover)⟩
  have hdigit : ∀ k (hk : k < (bcdDigits s.cfg.bcdTensQuirk (s.reg x)).length),
      (s.writeBytes s.indexAddr (bcdDigits s.cfg.bcdTensQuirk (s.reg x))).readByte
        (s.i.toNat + k) = (bcdDigits s.cfg.bcdTensQuirk (s.reg x))[k] := fun k hk =>
    State.readByte_writeBytes_inside hm (by rw [length_bcdDigits, State.indexAddr]; omega) hk
  obtain ⟨hhundreds, htens, hones⟩ := toNat_getElem_bcdDigits s.cfg.bcdTensQuirk (s.reg x)
  exact ⟨_, exec_ldBVx s (fits_of_last hlast), (congrArg _ (hdigit 0 (by simp))).trans hhundreds,
    (congrArg _ (hdigit 1 (by simp))).trans htens, (congrArg _ (hdigit 2 (by simp))).trans hones,
    bytesKept_writeBytes s s.indexAddr (bcdDigits _ _), rfl, (frame_writeBytes _ _ _).goTo _⟩

/-- Settles O40: a block that fits is written at I, and otherwise the check fails. -/
theorem dumpStoresTheRegisters : Obligations.DumpStoresTheRegisters := by
  unfold Obligations.DumpStoresTheRegisters
  refine fun x s hm => ⟨fun hlast => ?_, fun hover =>
    exec_ldMemVx_overflow s (not_fits_of_last hover)⟩
  refine ⟨_, exec_ldMemVx s (fits_of_last hlast), fun k hk => readByte_dump hm hlast hk, ?_, rfl,
    (frame_writeBytes _ _ _).goTo _⟩
  rw [← State.length_regBlock (s := s) x]
  exact bytesKept_writeBytes _ _ _

/-- Settles O41: V0..Vx take the bytes of a block that fits, and otherwise the check fails. -/
theorem loadFillsTheRegisters : Obligations.LoadFillsTheRegisters := by
  unfold Obligations.LoadFillsTheRegisters
  refine fun x s => ⟨fun hlast => ?_, fun hover => exec_ldVxMem_overflow s (not_fits_of_last hover)⟩
  refine ⟨_, exec_ldVxMem s (fits_of_last hlast), fun k hk => ?_, fun k hk => ?_, rfl,
    (frame_loadRegBlock _ _ _).goTo _⟩
  · rw [State.reg_goTo, State.reg_loadRegBlock, if_pos hk]
  · rw [State.reg_goTo, State.reg_loadRegBlock, if_neg (not_le.2 hk)]

/-- Settles O42: the load reads at I + k the byte the dump left there, which is Vk. -/
theorem dumpThenLoadRestoresTheRegisters : Obligations.DumpThenLoadRestoresTheRegisters := by
  unfold Obligations.DumpThenLoadRestoresTheRegisters
  intro x s u v hm hlast hdump hcfg hmem hi
  rw [exec_ldMemVx s (fits_of_last hlast)] at hdump
  cases hdump
  simp only [State.goTo_cfg, State.goTo_i, State.writeBytes_cfg, State.writeBytes_i] at hcfg hi
  have hlast' : v.i.toNat + x.val < v.cfg.memSize := by rw [hi, hcfg]; exact hlast
  refine ⟨_, exec_ldVxMem v (fits_of_last hlast'), hi, fun k hk => ?_⟩
  rw [State.reg_goTo, State.reg_loadRegBlock, if_pos hk, State.indexAddr, hi]
  exact (State.readByte_congr (by rw [hcfg]; simp) hmem _).trans (readByte_dump hm hlast hk)

/-- Settles O43: the two bytes at the next pc are Vj and the register after it. -/
theorem storedWordIsFetchedNext : Obligations.StoredWordIsFetchedNext := by
  unfold Obligations.StoredWordIsFetchedNext
  intro x j k s hm hlast hjk hk hpc
  have hkx : k.val ≤ x.val := hk
  have hj : j ≤ x := show j.val ≤ x.val by omega
  have hlo : s.pc + 2 + 1 = s.i.toNat + k.val := by omega
  refine ⟨_, wordOfBytes (s.reg j) (s.reg k), exec_ldMemVx s (fits_of_last hlast),
    State.fetch_eq_some.2 ⟨?_, ?_⟩, toNat_wordOfBytes _ _⟩
  · simp only [State.goTo_pc, State.goTo_cfg, State.writeBytes_cfg]; omega
  · simp only [State.goTo_pc, State.readByte_goTo]
    rw [hlo, ← hpc, readByte_dump hm hlast hj, readByte_dump hm hlast hk]

/-- Settles O44, by induction on both lists of cells at once. -/
theorem canonicalMemoryIsUnique : Obligations.CanonicalMemoryIsUnique := by
  unfold Obligations.CanonicalMemoryIsUnique
  exact fun c m m' h h' hreads => eq_of_reads h h' hreads

end Sys2Proof.Machine

/-! PROOFS. Display (43_display.md): CLS, and the cells a draw changes. -/

namespace Sys2Proof.Machine

variable {s : State} {x y : RegIx} {n : Nibble}

/-! ### Displays and draws -/

/-- Displays with the same cells are equal. -/
theorem display_ext {d d' : Display} (h : ∀ c r, pixel d c r = pixel d' c r) : d = d' :=
  Vector.ext fun c hc => Vector.ext fun r hr => h ⟨c, hc⟩ ⟨r, hr⟩

/-- The sprite depends on memory, I and the two coordinate registers alone. -/
theorem spriteOn_congr {u : State} (hcfg : u.cfg = s.cfg) (hmem : u.mem = s.mem) (hi : u.i = s.i)
    (hx : u.reg x = s.reg x) (hy : u.reg y = s.reg y) (c : Fin 64) (r : Fin 32) :
    spriteOn u x y n c r = spriteOn s x y n c r := by
  simp only [spriteOn, hx, hy, State.indexAddr, hi, State.readByte_congr hcfg hmem]

/-- A sprite of zero rows is on no cell. -/
theorem spriteOn_eq_false (h : ∀ k, k < n.toNat → s.readByte (s.i.toNat + k) = 0) (c : Fin 64)
    (r : Fin 32) : spriteOn s x y n c r = false := by
  rw [Bool.eq_false_iff, ne_eq, spriteOn_iff]
  rintro ⟨dx, dy, -, -, -, hdy, hbit⟩
  rw [State.indexAddr, h dy hdy] at hbit
  simp at hbit

/-- A draw lights a cell exactly when the sprite lies on it and it is lit afterwards, where a second
draw of the sprite collides. -/
theorem turnedOn_iff (c : Fin 64) (r : Fin 32) :
    pixel s.disp c r = false ∧ pixel (s.drawn x y n).1 c r = true ↔
      spriteOn s x y n c r = true ∧ pixel (s.drawn x y n).1 c r = true := by
  rw [pixel_drawn]
  cases pixel s.disp c r <;> cases spriteOn s x y n c r <;> decide

/-- What a draw inside memory leaves: the drawn display, its collision in VF, and all a draw reads
but the display and VF. -/
theorem drw_next {u : State} (hrows : n.toNat = 0 ∨ s.i.toNat + n.toNat - 1 < s.cfg.memSize)
    (h : exec (.drw x y n) s = .next u) : u.disp = (s.drawn x y n).1 ∧
      u.reg regF = flagByte (s.drawn x y n).2 ∧ RegsKept [regF] s u ∧ u.cfg = s.cfg ∧
      u.mem = s.mem ∧ u.i = s.i := by
  rw [exec_drw s (fits_of_lastRow hrows)] at h
  cases h
  exact ⟨rfl, State.reg_setReg_same regF _, regsKept_setReg s regF _, rfl, rfl, rfl⟩

theorem frame_drw (s : State) (f : Bool) (d : Display) : Frame [.regs, .display, .dirtyFlag] s
    { s.setReg regF (flagByte f) with disp := d, dirty := true } := by
  simp [Frame, State.readByte]

/-! ### The statements -/

/-- Settles O45: the flush renders a dirty display and leaves dirty false, and the cells are then
blank. -/
theorem clsFlushesThenClears : Obligations.ClsFlushesThenClears := by
  unfold Obligations.ClsFlushesThenClears
  refine fun s => ⟨_, exec_cls s, pixel_blankDisplay, s.flush_dirty, s.flush_frames, by simp, ?_⟩
  simp [Frame, State.reg, State.readByte]

/-- Settles O46: a draw that fits flips the cells the sprite is on, else the check fails. -/
theorem drawXorsTheSprite : Obligations.DrawXorsTheSprite := by
  unfold Obligations.DrawXorsTheSprite
  refine fun x y n s => ⟨fun hrows => ?_, fun hpos hover => exec_drw_overflow s ?_⟩
  · exact ⟨_, exec_drw s (fits_of_lastRow hrows), pixel_drawn s x y n, rfl,
      regsKept_setReg s regF _, rfl, (frame_drw s _ _).goTo _⟩
  · exact (State.fits_eq_false _ _).2 ⟨by omega, hover⟩

/-- Settles O48: the second draw has the same sprite, so it flips each cell back. -/
theorem drawingTwiceRestoresTheDisplay : Obligations.DrawingTwiceRestoresTheDisplay := by
  unfold Obligations.DrawingTwiceRestoresTheDisplay
  intro x y n s u t hx hy hrows hfirst hsecond
  obtain ⟨hdisp, -, hregs, hcfg, hmem, hi⟩ := drw_next hrows hfirst
  obtain ⟨hdisp', hflag', -⟩ := drw_next (by rwa [hcfg, hi]) hsecond
  have hon : ∀ c r, spriteOn u x y n c r = spriteOn s x y n c r :=
    spriteOn_congr hcfg hmem hi (hregs x (by simpa using hx)) (hregs y (by simpa using hy))
  refine ⟨display_ext fun c r => ?_, ?_⟩
  · rw [hdisp', pixel_drawn, hon, hdisp, pixel_drawn, Bool.xor_assoc, Bool.xor_self, Bool.xor_false]
  · rw [hflag', flagByte_eq_one, collision_drawn]
    simp only [hon, hdisp, turnedOn_iff]

/-- Settles O49: a sprite that is on no cell flips none and collides with none. -/
theorem zeroSpriteDrawsNothing : Obligations.ZeroSpriteDrawsNothing := by
  unfold Obligations.ZeroSpriteDrawsNothing
  intro x y n s hrows hzero
  have hoff : ∀ c r, spriteOn s x y n c r = false := spriteOn_eq_false hzero
  obtain ⟨t, hexec, hdisp, hflag, hdirty⟩ := exec_drw_completes (x := x) (y := y) hrows
  have hclear : (s.drawn x y n).2 = false := by
    rw [Bool.eq_false_iff, ne_eq, collision_drawn]
    simp [hoff]
  refine ⟨t, hexec, fun c r => ?_, hflag.trans (congrArg flagByte hclear), hdirty⟩
  rw [hdisp, pixel_drawn, hoff, Bool.xor_false]

end Sys2Proof.Machine

/-! PROOFS. Timers and keys (44_timers_and_keys.md): LD DT, Vx and LD ST, Vx. -/

namespace Sys2Proof.Machine

/-- Settles O51: DT and ST take Vx, and FX15 alone touches the wait, under the option and for Vx not
0. -/
theorem setTimers : Obligations.SetTimers := by
  unfold Obligations.SetTimers
  refine fun x s => ⟨⟨_, exec_ldDTVx s x, rfl, fun hwait => ?_, fun hno => ?_, rfl, ?_⟩,
    ⟨_, exec_ldSTVx s x, rfl, ?_, rfl, ?_⟩⟩
  · exact if_pos (by simpa using hwait)
  · exact if_neg (by simpa using hno)
  · simp [Frame, State.reg, State.readByte, State.goTo]
  · simp [State.tone]
  · simp [Frame, State.reg, State.readByte, State.goTo]

end Sys2Proof.Machine
